-- ==== Sys2Proof/Word.lean ====
section
/-! DEFINITION. The two value types of the block (spec/00_scope.md R7: every field is unsigned). -/

namespace Sys2Proof

/-- `u8` (R7). -/
abbrev Byte := BitVec 8

/-- `u16` (R7): a PDU field, a register cell, the CRC register, `E.STATUS`. -/
abbrev Word := BitVec 16

end Sys2Proof
end

