-- ==== Sys2Proof/Machine/Operands.lean ====
section
/-! DEFINITION. Operand assembly and byte order: the byte-string notation of spec/00_scope.md R8, the
field assembly of spec/30_encoding.md R107 and the bit packing of R101. -/

namespace Sys2Proof.Machine

/-- A big-endian field: `hi * 256 + lo` (R8, R107). -/
def ofBE16 (hi lo : Byte) : Word := hi ++ lo

/-- `be16(x, i) = x[i]*256 + x[i+1]` (R8). -/
def be16 (x : List Byte) (i : Nat) : Word := ofBE16 (x.getD i 0) (x.getD (i + 1) 0)

/-- `v[15:8]` (R7). -/
def hiByte (v : Word) : Byte := v.extractLsb' 8 8

/-- `v[7:0]` (R7). -/
def loByte (v : Word) : Byte := v.extractLsb' 0 8

/-- `BE16(v) = [v[15:8], v[7:0]]` (R8). -/
def BE16 (v : Word) : List Byte := [hiByte v, loByte v]

/-- `LE16(v) = [v[7:0], v[15:8]]` (R8). -/
def LE16 (v : Word) : List Byte := [loByte v, hiByte v]

/-- `ceil8(n) = (n + 7) div 8` (R8). -/
def ceil8 (n : Nat) : Nat := (n + 7) / 8

/-- The bytes the data of a format WM request needs for `qty` coils (spec/46_write_multiple_fc15_16.md
R262). -/
def coilBytes (qty : Word) : Nat := ceil8 qty.toNat

/-- The bytes the data of a format WM request needs for `qty` registers (R262). -/
def registerBytes (qty : Word) : Nat := 2 * qty.toNat

/-- Eight bits of a list in one byte, the first in the least significant bit, 0 beyond its end
(R101). -/
def packByte (bits : List Bool) : Byte := BitVec.ofFnLE fun j : Fin 8 => bits.getD j false

/-- `pack(bits)`: bit `i` is bit `i mod 8` of byte `i div 8` (R101, spec/40_pdu_codec.md R134). -/
def pack (bits : List Bool) : List Byte :=
  (List.range (ceil8 bits.length)).map fun k => packByte (bits.drop (8 * k))

/-- The first `n` bits of FC15 data; the bits beyond are padding (R101, R260, R263). -/
def unpackBits (data : List Byte) (n : Nat) : List Bool :=
  (List.range n).map fun i => (data.getD (i / 8) 0).getLsbD (i % 8)

/-- The `n` big-endian words of FC16 data (R261). -/
def unpackWords (data : List Byte) (n : Nat) : List Word :=
  (List.range n).map fun i => be16 data (2 * i)

/-- Words on the wire, each high byte first (spec/30_encoding.md R97). -/
def wordBytes (ws : List Word) : List Byte := ws.flatMap BE16

end Sys2Proof.Machine
end

