-- ==== Sys2Proof/Syntax.lean ====
section
/-! DEFINITION. The instructions of the block: decoded request PDUs (spec/30_encoding.md R90, R105,
spec/10_state.md R27), one constructor per row of spec/opcode_table.json. Every field is kept as
received, so that a decoded request re-encodes to the same bytes (spec/40_pdu_codec.md R139). -/

namespace Sys2Proof

inductive Instr where
  /-- FC 0x01, format RB (R93, R230). -/
  | readCoils (start qty : Word)
  /-- FC 0x02, format RB (R93, R231). -/
  | readDiscreteInputs (start qty : Word)
  /-- FC 0x03, format RB (R93, R232). -/
  | readHoldingRegisters (start qty : Word)
  /-- FC 0x04, format RB (R93, R233). -/
  | readInputRegisters (start qty : Word)
  /-- FC 0x05, format WS (R94, R250). `value` is the coil value code of R106. -/
  | writeSingleCoil (start value : Word)
  /-- FC 0x06, format WS (R94, R251). -/
  | writeSingleRegister (start value : Word)
  /-- FC 0x0F, format WM (R95, R260). `data` keeps the padding bits (R139). -/
  | writeMultipleCoils (start qty : Word) (bc : Byte) (data : List Byte)
  /-- FC 0x10, format WM (R95, R261). -/
  | writeMultipleRegisters (start qty : Word) (bc : Byte) (data : List Byte)
  /-- FC 0x80 to 0xFF (spec/47_unsupported_fc.md R281). `rest` is not read by the meaning; it is kept
  for the round trip (log 14). -/
  | unsupportedBit7 (fc : Byte) (rest : List Byte)
  /-- FC 0x00, 0x07 to 0x0E and 0x11 to 0x7F (R280). -/
  | unsupportedDefault (fc : Byte) (rest : List Byte)
  deriving DecidableEq, Repr

end Sys2Proof
end

