-- ==== Sys2Proof/WellFormed.lean ====
section
/-! DEFINITION. Which decoded requests the codec can produce: the format checks of
spec/40_pdu_codec.md R130. The count and bounds checks belong to the store
(spec/20_memory.md R72, R73), so a request with `qty` = 0 is well formed (R130, corner cases). -/

namespace Sys2Proof

open Machine (coilBytes registerBytes)

/-- The supported function codes (spec/30_encoding.md R105, spec/40_pdu_codec.md R132). -/
def supportedFcs : List Byte := [0x01, 0x02, 0x03, 0x04, 0x05, 0x06, 0x0F, 0x10]

/-- The two coil value codes of FC5 (spec/30_encoding.md R106). -/
def coilCodes : List Word := [0xFF00, 0x0000]

/-- The format checks of R130, R262 and R105, as a decidable proposition. -/
def Instr.checks : Instr → Bool
  | .readCoils _ _ => true
  | .readDiscreteInputs _ _ => true
  | .readHoldingRegisters _ _ => true
  | .readInputRegisters _ _ => true
  | .writeSingleCoil _ value => coilCodes.contains value
  | .writeSingleRegister _ _ => true
  | .writeMultipleCoils _ qty bc data => data.length == bc.toNat && bc.toNat == coilBytes qty
  | .writeMultipleRegisters _ qty bc data => data.length == bc.toNat && bc.toNat == registerBytes qty
  | .unsupportedBit7 fc _ => fc.msb
  | .unsupportedDefault fc _ => !fc.msb && !supportedFcs.contains fc

/-- `i` is a request some PDU decodes to. -/
abbrev Instr.WellFormed (i : Instr) : Prop := i.checks = true

end Sys2Proof
end

