-- ==== Sys2Proof/Decode.lean ====
section
/-! DEFINITION. The PDU codec's request side: `decode` (spec/40_pdu_codec.md R130), total on every byte
list, rejecting by name, and its inverse `encode` (R138), written from the formats of
spec/30_encoding.md R93 to R95. -/

namespace Sys2Proof

open Machine

/-- The check of R130 that failed. All three that a delimited PDU can meet raise IllegalDataValue. -/
inductive DecodeError where
  /-- No function code byte. The transports never deliver it (spec/30_encoding.md R90). -/
  | emptyPdu
  /-- The length is not the format's (R133). -/
  | badLength
  /-- An FC5 value code other than 0xFF00 and 0x0000 (spec/30_encoding.md R106). -/
  | badCoilValue
  /-- `bc` does not fit `qty` (spec/46_write_multiple_fc15_16.md R262). -/
  | badByteCount
  deriving DecidableEq, Repr

/-- Formats RB and WS after the function code: exactly two big-endian fields (R93, R94). -/
def decodeTwoFields (mk : Word → Word → Instr) : List Byte → Except DecodeError Instr
  | [a, b, c, d] => .ok (mk (ofBE16 a b) (ofBE16 c d))
  | _ => .error .badLength

/-- FC5 after the function code: format WS with the value check of R106. -/
def decodeCoil : List Byte → Except DecodeError Instr
  | [a, b, c, d] =>
    if coilCodes.contains (ofBE16 c d) then .ok (.writeSingleCoil (ofBE16 a b) (ofBE16 c d))
    else .error .badCoilValue
  | _ => .error .badLength

/-- Format WM after the function code: the length check, then the byte-count check (R95, R262). -/
def decodeMultiple (need : Word → Nat) (mk : Word → Word → Byte → List Byte → Instr) :
    List Byte → Except DecodeError Instr
  | a :: b :: c :: d :: bc :: data =>
    if data.length ≠ bc.toNat then .error .badLength
    else if bc.toNat ≠ need (ofBE16 c d) then .error .badByteCount
    else .ok (mk (ofBE16 a b) (ofBE16 c d) bc data)
  | _ => .error .badLength

/-- The function code map over all 256 values of the first byte (R105). -/
def decodeFc (fc : Byte) (fields : List Byte) : Except DecodeError Instr :=
  if fc = 0x01 then decodeTwoFields .readCoils fields
  else if fc = 0x02 then decodeTwoFields .readDiscreteInputs fields
  else if fc = 0x03 then decodeTwoFields .readHoldingRegisters fields
  else if fc = 0x04 then decodeTwoFields .readInputRegisters fields
  else if fc = 0x05 then decodeCoil fields
  else if fc = 0x06 then decodeTwoFields .writeSingleRegister fields
  else if fc = 0x0F then decodeMultiple coilBytes .writeMultipleCoils fields
  else if fc = 0x10 then decodeMultiple registerBytes .writeMultipleRegisters fields
  else if fc.msb then .ok (.unsupportedBit7 fc fields)
  else .ok (.unsupportedDefault fc fields)

/-- The decoder (R130). An unsupported function code is an instruction of its own, whose meaning
raises IllegalFunction (log 14); `Machine.decodeRequest` is R130 with that exception raised here. -/
def decode : List Byte → Except DecodeError Instr
  | [] => .error .emptyPdu
  | fc :: fields => decodeFc fc fields

/-- The function code byte of a request (R105). -/
def Instr.fc : Instr → Byte
  | .readCoils _ _ => 0x01
  | .readDiscreteInputs _ _ => 0x02
  | .readHoldingRegisters _ _ => 0x03
  | .readInputRegisters _ _ => 0x04
  | .writeSingleCoil _ _ => 0x05
  | .writeSingleRegister _ _ => 0x06
  | .writeMultipleCoils _ _ _ _ => 0x0F
  | .writeMultipleRegisters _ _ _ _ => 0x10
  | .unsupportedBit7 fc _ => fc
  | .unsupportedDefault fc _ => fc

/-- The bytes after the function code (R93 to R95). -/
def Instr.fields : Instr → List Byte
  | .readCoils start qty => BE16 start ++ BE16 qty
  | .readDiscreteInputs start qty => BE16 start ++ BE16 qty
  | .readHoldingRegisters start qty => BE16 start ++ BE16 qty
  | .readInputRegisters start qty => BE16 start ++ BE16 qty
  | .writeSingleCoil start value => BE16 start ++ BE16 value
  | .writeSingleRegister start value => BE16 start ++ BE16 value
  | .writeMultipleCoils start qty bc data => BE16 start ++ BE16 qty ++ bc :: data
  | .writeMultipleRegisters start qty bc data => BE16 start ++ BE16 qty ++ bc :: data
  | .unsupportedBit7 _ rest => rest
  | .unsupportedDefault _ rest => rest

/-- `encode_req`: the PDU of a request (R138). -/
def encode (i : Instr) : List Byte := i.fc :: i.fields

/-- The first `n` bytes of an instruction numbered as spec/opcode_table.json numbers its bits: byte 0
holds bits 7..0. -/
def tableBytes : Nat → Nat → List Byte
  | 0, _ => []
  | n + 1, w => BitVec.ofNat 8 w :: tableBytes n (w / 256)

/-- How many bytes the format of a PDU that begins with these bytes asks for (spec/30_encoding.md R92);
an unsupported code asks for none beyond itself. -/
def formatLength (p : List Byte) : Nat :=
  let fc := p.getD 0 0
  if fc = 0x0F ∨ fc = 0x10 then 6 + (p.getD 5 0).toNat
  else if supportedFcs.contains fc then 5
  else 1

/-- The PDU whose bits are `w`: the table's bytes, then zero bytes up to the length its format asks
for (log 19). -/
def tablePdu (nbits w : Nat) : List Byte :=
  let given := tableBytes (max 1 ((nbits + 7) / 8)) w
  given ++ List.replicate (formatLength given - given.length) 0

/-- What the decoder reads from the instruction whose bits are `w`. -/
def decodeTableWord (nbits w : Nat) : Option Instr :=
  match decode (tablePdu nbits w) with
  | .ok i => some i
  | .error _ => none

end Sys2Proof
end

