-- ==== Sys2Proof/Config.lean ====
section
/-! DEFINITION. The implementation parameters of spec/00_scope.md R5 and their defaults. -/

namespace Sys2Proof

/-- The transport of an engine instance (spec/10_state.md R22). -/
inductive Transport where
  | tcp
  | rtu
  deriving DecidableEq, Repr

/-- `PRESET`: the contents of the four tables at reset (spec/20_memory.md R66). The length of a list
is its table's capacity `N_T`: R66 asks for a preset of exactly that size (log 9). -/
structure Preset where
  coils : List Bool
  di    : List Bool
  hr    : List Word
  ir    : List Word
  deriving DecidableEq, Repr

/-- The parameters that are not constants of the hardware (R5), fixed for a reset epoch (R31).
`maxSessions = none` is the document's "unbounded". -/
structure Params where
  mode         : Transport
  unitId       : Byte
  unitFilterEn : Bool
  preset       : Preset
  maxSessions  : Option Nat
  baud         : Nat
  deriving DecidableEq, Repr

/-- The document's simulator preset (spec/20_memory.md R66). -/
def Preset.simulator : Preset where
  coils := (List.range 100).map fun i => i % 2 == 0
  di    := (List.range 100).map fun i => decide (i < 50)
  hr    := (List.range 100).map fun i => BitVec.ofNat 16 i
  ir    := (List.range 100).map fun i => BitVec.ofNat 16 (1000 + i)

/-- The defaults of R5. `MODE` and `BAUD` have none there: TCP is DESIGN CHOICE (log 5), 9600 is
DESIGN CHOICE (log 6). `MAX_SESSIONS` is OPEN and takes the document's default, unbounded (log 7). -/
def Params.default : Params where
  mode         := .tcp
  unitId       := 1
  unitFilterEn := false
  preset       := Preset.simulator
  maxSessions  := none
  baud         := 9600

/-- `MAX_SESSIONS` is an integer >= 1 or unbounded and `BAUD` is a positive integer (R5). -/
abbrev Params.typed (p : Params) : Prop := p.maxSessions ≠ some 0 ∧ 0 < p.baud

/-- No table is larger than the 16-bit address field reaches (R6). -/
abbrev Preset.addressable (p : Preset) : Prop :=
  p.coils.length ≤ 65536 ∧ p.di.length ≤ 65536 ∧ p.hr.length ≤ 65536 ∧ p.ir.length ≤ 65536

namespace Config

/-- `TCP_PDU_MAX` (R5). -/
def tcpPduMax : Nat := 253
/-- `RTU_FRAME_MIN` (R5). -/
def rtuFrameMin : Nat := 4
/-- `RTU_FRAME_MAX` (R5). -/
def rtuFrameMax : Nat := 256
/-- `QMAX_READ_BITS` (R5, spec/20_memory.md R72). -/
def qmaxReadBits : Nat := 2000
/-- `QMAX_READ_WORDS` (R5, R72). -/
def qmaxReadWords : Nat := 125
/-- `QMAX_WRITE_BITS` (R5, R72). -/
def qmaxWriteBits : Nat := 1968
/-- `QMAX_WRITE_WORDS` (R5, R72). -/
def qmaxWriteWords : Nat := 123
/-- The maximum of FC5 and FC6 (R72). -/
def qmaxSingle : Nat := 1

/-- `T35` in seconds, `35 / BAUD` for 10-bit characters (R5, spec/42_rtu_crc.md R197). The silence
detector is outside the block: no rule of the block reads this. -/
def t35 (baud : Nat) : ℚ := 35 / baud

end Config

end Sys2Proof
end

