-- ==== Sys2Proof/Machine/State.lean ====
section
/-! DEFINITION. The state of the block (spec/10_state.md, spec/20_memory.md R60), plain data, with its
values at reset (spec/70_reset_and_hazards.md R340 to R344), and the reasons a step can stop. -/

namespace Sys2Proof.Machine

/-- `E.sess` (R21). CLOSED is terminal. -/
inductive Session where
  | opened
  | closed
  deriving DecidableEq, Repr

/-- `E.phase`, the position register (R23). -/
inductive Phase where
  | tcpHdr
  | tcpBody
  | rtuRecv
  | rtuDiscard
  deriving DecidableEq, Repr

/-- `E.hdr`, the MBAP header latch (R25). -/
structure MbapHdr where
  tid : Word
  pid : Word
  len : Word
  uid : Byte
  deriving DecidableEq, Repr

/-- `E.txPending`: a built response frame and the `E.STATUS` value EMIT writes with it (R28). -/
structure TxPending where
  frame  : List Byte
  status : Word
  deriving DecidableEq, Repr

/-- One item of an input stream (R20). -/
inductive Item where
  | byte (b : Byte)
  | gap
  | eos
  deriving DecidableEq, Repr

/-- The per-instance state `E` (R21 to R29) with its two streams (R20). `hdr` is an Option because the
latch "holds no value until loaded" (R25, R36; log 11). -/
structure Engine where
  sess      : Session
  mode      : Transport
  phase     : Phase
  buf       : List Byte
  hdr       : Option MbapHdr
  crc       : Word
  txPending : Option TxPending
  status    : Word
  input     : List Item
  output    : List (List Byte)
  deriving DecidableEq, Repr

/-- The configuration registers (R30). -/
structure Cfg where
  mode         : Transport
  unitId       : Byte
  unitFilterEn : Bool
  deriving DecidableEq, Repr

/-- The written cells of the four tables (spec/20_memory.md R60): address and cell pairs, addresses
rising, no entry equal to what the unlisted address reads as, its `PRESET` cell (log 8). -/
structure Memory where
  coils : List (Nat × Bool)
  di    : List (Nat × Bool)
  hr    : List (Nat × Word)
  ir    : List (Nat × Word)
  deriving DecidableEq, Repr

/-- The two tables of bits (spec/20_memory.md R60). -/
inductive BitTable where
  | coils
  | di
  deriving DecidableEq, Repr

/-- The two tables of u16 cells (spec/20_memory.md R60). -/
inductive WordTable where
  | hr
  | ir
  deriving DecidableEq, Repr

/-- What the environment and the free schedule do next (R20, spec/60_exceptions.md R320; log 2). -/
inductive Event where
  /-- The listener hands over a stream: a new instance (spec/60_exceptions.md R321, R322). -/
  | connect
  /-- The host feeds one item to an input stream (R20). -/
  | feed (k : Nat) (item : Item)
  /-- Instance `k` takes its next input item, and EXEC where that completes a frame. -/
  | consume (k : Nat)
  /-- The EMIT step of instance `k` and the host's answer (spec/43_dispatcher.md R216). -/
  | emit (k : Nat) (accepted : Bool)
  /-- The process-wide shutdown (spec/60_exceptions.md R313). -/
  | abort
  /-- The simulation hook on a table of bits (spec/20_memory.md R65). -/
  | hostWriteBits (t : BitTable) (a : Nat) (vs : List Bool)
  /-- The simulation hook on a table of words (R65). -/
  | hostWriteWords (t : WordTable) (a : Nat) (vs : List Word)
  /-- A change of configuration while the epoch runs (R31). -/
  | reconfigure (p : Params)
  /-- A process start, after the epoch ended (spec/70_reset_and_hazards.md R340). -/
  | restart (p : Params)
  deriving DecidableEq, Repr

/-- The reset epoch: from reset until `Abort` (spec/70_reset_and_hazards.md R340; log 17). -/
inductive Epoch where
  | running
  | ended
  deriving DecidableEq, Repr

/-- The whole state. `schedule` and `cur` are the model's own (log 2, log 3); the lock of R33 has no
field (log 10). -/
structure State where
  cfg         : Cfg
  preset      : Preset
  maxSessions : Option Nat
  baud        : Nat
  store       : Memory
  engines     : List Engine
  epoch       : Epoch
  cur         : Nat
  schedule    : List Event
  deriving DecidableEq, Repr

/-- Why the machine stops with a fault. All four are safe: the model stops, and no rule of the spec
leads to one of them (Obligations.InvariantStatesNeverFault). -/
inductive Fault where
  /-- Raised by a step or EXEC that reads `E.hdr` before its first load: the spec's own stop, R36, "State
  that no rule has written holds no value ... A model reading it faults". Safe. -/
  | hdrUnloaded
  /-- Raised by EXEC where `cur` names no instance (log 18). Safe. -/
  | noInstance
  /-- Raised by EXEC of an RTU instance whose buffer holds no unit id (log 18). Safe. -/
  | noFrame
  /-- Raised by a step of an instance whose phase is not one of its mode's (R23; log 18). Safe. -/
  | illegalPhase
  deriving DecidableEq, Repr

/-- Why the model has no run. Every one but `notModelled` is a host event that the spec says the model
refuses, or that names no agent (log 16); no instruction raises one. All are safe. -/
inductive Refusal where
  /-- Raised by an arm of `exec` without a meaning; no arm is one. Safe. -/
  | notModelled (mnemonic : String)
  /-- Raised by a `Gap` given to a TCP instance (spec/41_mbap_tcp.md R150). Safe. -/
  | gapToTcp
  /-- Raised by a connection beyond `MAX_SESSIONS` (spec/60_exceptions.md R321). Safe. -/
  | sessionLimit
  /-- Raised by a second session of an RTU epoch (spec/60_exceptions.md R322). Safe. -/
  | rtuSingleSession
  /-- Raised by an event that names no instance (log 16). Safe. -/
  | noSuchSession
  /-- Raised by a hook write past the end of its table (spec/20_memory.md R65). Safe. -/
  | hostWriteOutOfRange
  /-- Raised by a change of configuration within an epoch (R31). Safe. -/
  | reconfigured
  /-- Raised by a start with a capacity above 65536 (spec/00_scope.md R6). Safe. -/
  | capacityTooLarge
  /-- Raised by a start with a parameter outside its type (spec/00_scope.md R5). Safe. -/
  | illegalParameter
  /-- Raised by a start while the epoch runs: there is no soft reset
  (spec/70_reset_and_hazards.md R340). Safe. -/
  | softReset
  /-- Raised by a connection or a hook write after the epoch ended (R340; log 17). Safe. -/
  | epochEnded
  deriving DecidableEq, Repr

/-- The store with nothing written: every cell reads its `PRESET` (R341). -/
def Memory.empty : Memory := { coils := [], di := [], hr := [], ir := [] }

/-- Reset with parameters `p` (spec/70_reset_and_hazards.md R340 to R343): the store is `PRESET`, the
configuration registers take their parameters, no instance exists. -/
def State.boot (p : Params) : State where
  cfg         := { mode := p.mode, unitId := p.unitId, unitFilterEn := p.unitFilterEn }
  preset      := p.preset
  maxSessions := p.maxSessions
  baud        := p.baud
  store       := Memory.empty
  engines     := []
  epoch       := .running
  cur         := 0
  schedule    := []

/-- The machine right after reset with the default parameters of spec/00_scope.md R5. -/
def State.reset : State := State.boot Params.default

end Sys2Proof.Machine
end

