-- ==== Sys2Proof/Machine/Flags.lean ====
section
/-! DEFINITION. The block has no condition flags (spec/10_state.md R32). This file holds the one status
computation there is: the `E.STATUS` word (R29). -/

namespace Sys2Proof.Machine

/-- The outcomes `KIND` records (R29). -/
inductive Kind where
  | none
  | respOk
  | respExc
  | dropCrc
  | dropUnit
  | dropFrame
  | closedFrame
  | closedEos
  | closedAbort
  | closedTxFail
  deriving DecidableEq, Repr

/-- The `KIND` field of each outcome, bits [3:0] (R29). -/
def kindCode : Kind → BitVec 4
  | .none => 0
  | .respOk => 1
  | .respExc => 2
  | .dropCrc => 3
  | .dropUnit => 4
  | .dropFrame => 5
  | .closedFrame => 6
  | .closedEos => 7
  | .closedAbort => 8
  | .closedTxFail => 9

/-- An `E.STATUS` value: `EXC` in [15:8], zero in [7:4], `KIND` in [3:0] (R29). -/
def statusWord (k : Kind) (exc : Byte) : Word := exc ++ (0#4 ++ kindCode k : BitVec 8)

/-- The status of an outcome other than an exception response: `EXC` is 0 (R29). -/
def plainStatus (k : Kind) : Word := statusWord k 0

/-- The status of an exception response (R29, spec/60_exceptions.md R303). -/
def excStatus (code : Byte) : Word := statusWord .respExc code

/-- The `KIND` field (R29). -/
def statusKind (v : Word) : BitVec 4 := v.extractLsb' 0 4

/-- The reserved field, bits [7:4] (R29). -/
def statusReserved (v : Word) : BitVec 4 := v.extractLsb' 4 4

/-- The `EXC` field (R29). -/
def statusExc (v : Word) : Byte := v.extractLsb' 8 8

end Sys2Proof.Machine
end

