-- ==== Sys2Proof/Machine/Memory.lean ====
section
/-! DEFINITION. The register store (spec/20_memory.md): one-cell reads and writes over the canonical
sparse form, and the store operations `MemRead` and `MemWrite` (R70, R71) with their checks
(R72, R73). -/

namespace Sys2Proof.Machine

/-- The cell listed at `a`, if one is. -/
def cellLookup {α : Type} : List (Nat × α) → Nat → Option α
  | [], _ => none
  | (k, v) :: rest, a => if k = a then some v else cellLookup rest a

/-- The list without an entry at `a`. -/
def cellErase {α : Type} : List (Nat × α) → Nat → List (Nat × α)
  | [], _ => []
  | (k, v) :: rest, a => if k = a then cellErase rest a else (k, v) :: cellErase rest a

/-- The list with `v` at `a`, the addresses still rising. -/
def cellInsert {α : Type} : List (Nat × α) → Nat → α → List (Nat × α)
  | [], a, v => [(a, v)]
  | (k, w) :: rest, a, v =>
    if a < k then (a, v) :: (k, w) :: rest
    else if a = k then (a, v) :: rest
    else (k, w) :: cellInsert rest a v

/-- Cell `a` of a table whose preset is `preset`: no cell beyond the capacity (R62), else the written
value, else the preset (R66). The one definition of what an unlisted address reads as. -/
def cellRead {α : Type} (preset : List α) (m : List (Nat × α)) (a : Nat) : Option α :=
  preset[a]?.map fun d => (cellLookup m a).getD d

/-- One cell written; writing the preset value leaves no entry, so equal tables are equal lists. -/
def cellWrite {α : Type} [DecidableEq α] (preset : List α) (m : List (Nat × α)) (a : Nat) (v : α) :
    List (Nat × α) :=
  if preset[a]? = some v then cellErase m a else cellInsert m a v

/-- `T[a+i] <- vs[i]` for every `i` (R71). -/
def cellsWrite {α : Type} [DecidableEq α] (preset : List α) :
    List (Nat × α) → Nat → List α → List (Nat × α)
  | m, _, [] => m
  | m, a, v :: vs => cellsWrite preset (cellWrite preset m a v) (a + 1) vs

/-- The canonical form of one table: addresses rising, each below the capacity, no entry equal to its
preset. -/
abbrev cellsWf {α : Type} (preset : List α) (m : List (Nat × α)) : Prop :=
  m.Pairwise (fun x y => x.1 < y.1) ∧ ∀ c ∈ m, c.1 < preset.length ∧ preset[c.1]? ≠ some c.2

/-- The canonical form of the store. -/
abbrev Memory.wf (p : Preset) (m : Memory) : Prop :=
  cellsWf p.coils m.coils ∧ cellsWf p.di m.di ∧ cellsWf p.hr m.hr ∧ cellsWf p.ir m.ir

/-- The preset of a table of bits. -/
def Preset.bits (p : Preset) : BitTable → List Bool
  | .coils => p.coils
  | .di => p.di

/-- The preset of a table of words. -/
def Preset.words (p : Preset) : WordTable → List Word
  | .hr => p.hr
  | .ir => p.ir

/-- The written cells of a table of bits. -/
def Memory.bits (m : Memory) : BitTable → List (Nat × Bool)
  | .coils => m.coils
  | .di => m.di

/-- The written cells of a table of words. -/
def Memory.words (m : Memory) : WordTable → List (Nat × Word)
  | .hr => m.hr
  | .ir => m.ir

/-- The store with another table of bits (R63: the others stay). -/
def Memory.setBits (m : Memory) : BitTable → List (Nat × Bool) → Memory
  | .coils, cs => { m with coils := cs }
  | .di, cs => { m with di := cs }

/-- The store with another table of words (R63). -/
def Memory.setWords (m : Memory) : WordTable → List (Nat × Word) → Memory
  | .hr, cs => { m with hr := cs }
  | .ir, cs => { m with ir := cs }

/-- `N_T` of a table of bits (R61). -/
def State.bitCapacity (s : State) (t : BitTable) : Nat := (Preset.bits s.preset t).length

/-- `N_T` of a table of words (R61). -/
def State.wordCapacity (s : State) (t : WordTable) : Nat := (Preset.words s.preset t).length

/-- Cell `a` of a table of bits; none where the address is not valid (R62). -/
def State.bit? (s : State) (t : BitTable) (a : Nat) : Option Bool :=
  cellRead (Preset.bits s.preset t) (Memory.bits s.store t) a

/-- Cell `a` of a table of words; none where the address is not valid (R62). -/
def State.word? (s : State) (t : WordTable) (a : Nat) : Option Word :=
  cellRead (Preset.words s.preset t) (Memory.words s.store t) a

/-- `MemRead(T, a, n)` of bits (R70). Called only after R72 and R73 have passed, so every index is
valid and the false of `getD` is never read. -/
def State.memReadBits (s : State) (t : BitTable) (a n : Nat) : List Bool :=
  (List.range n).map fun i => (s.bit? t (a + i)).getD false

/-- `MemRead(T, a, n)` of words (R70), under the same condition. -/
def State.memReadWords (s : State) (t : WordTable) (a n : Nat) : List Word :=
  (List.range n).map fun i => (s.word? t (a + i)).getD 0

/-- `MemWrite(T, a, vs)` of bits (R71), one atomic step (R75). -/
def State.memWriteBits (s : State) (t : BitTable) (a : Nat) (vs : List Bool) : State :=
  { s with store := Memory.setBits s.store t (cellsWrite (Preset.bits s.preset t) (Memory.bits s.store t) a vs) }

/-- `MemWrite(T, a, vs)` of words (R71), one atomic step (R75). -/
def State.memWriteWords (s : State) (t : WordTable) (a : Nat) (vs : List Word) : State :=
  { s with store := Memory.setWords s.store t (cellsWrite (Preset.words s.preset t) (Memory.words s.store t) a vs) }

/-- The three exceptions that go on the wire (spec/00_scope.md R11, spec/60_exceptions.md R300). -/
inductive WireExc where
  | illegalFunction
  | illegalDataAddress
  | illegalDataValue
  deriving DecidableEq, Repr

/-- The two checks of a store operation, the count before the bounds, in unbounded integers
(R72, R73). -/
def storeCheck (qmax count start capacity : Nat) : Except WireExc Unit :=
  if count < 1 ∨ qmax < count then .error .illegalDataValue
  else if capacity < start + count then .error .illegalDataAddress
  else .ok ()

end Sys2Proof.Machine
end

