-- ==== Sys2Proof/Machine/Ops.lean ====
section
/-! DEFINITION. The shared operations: the response and frame encoders, the registers of an instance,
taking an exception and the return from one, EMIT, and the request step EXEC that every meaning is an
instance of (spec/43_dispatcher.md R210). -/

namespace Sys2Proof.Machine

/-! ### Response PDUs (spec/40_pdu_codec.md R134, R135) -/

/-- Read-bits response of FC1 and FC2 (spec/30_encoding.md R96). -/
def respBits (fc : Byte) (qty : Word) (bits : List Bool) : List Byte :=
  fc :: BitVec.ofNat 8 (ceil8 qty.toNat) :: pack bits

/-- Read-words response of FC3 and FC4 (R97). -/
def respWords (fc : Byte) (qty : Word) (ws : List Word) : List Byte :=
  fc :: BitVec.ofNat 8 (2 * qty.toNat) :: wordBytes ws

/-- Write responses: FC5 and FC6 echo `start` and `value` (R98), FC15 and FC16 echo `start` and `qty`
(R99). -/
def respEcho (fc : Byte) (start second : Word) : List Byte := fc :: (BE16 start ++ BE16 second)

/-- The numeric codes (spec/60_exceptions.md R301). -/
def excCode : WireExc → Byte
  | .illegalFunction => 0x01
  | .illegalDataAddress => 0x02
  | .illegalDataValue => 0x03

/-- `encode_exc(fc, code) = [fc OR 0x80, code]` (spec/40_pdu_codec.md R135). -/
def encodeExc (fc code : Byte) : List Byte := [fc ||| 0x80, code]

/-! ### Frames (spec/41_mbap_tcp.md R158, spec/42_rtu_crc.md R196) -/

/-- What the transport keeps of a request to frame its response. -/
inductive Envelope where
  | tcp (tid : Word) (uid : Byte)
  | rtu (uid : Byte)
  deriving DecidableEq, Repr

/-- The unit id of the request. -/
def Envelope.uid : Envelope → Byte
  | .tcp _ uid => uid
  | .rtu uid => uid

/-- `encode_tcp(tid, uid, r)` (R158). The length field wraps for an `r` it cannot count (log 26). -/
def encodeTcp (tid : Word) (uid : Byte) (r : List Byte) : List Byte :=
  BE16 tid ++ BE16 0x0000 ++ BE16 (BitVec.ofNat 16 (1 + r.length)) ++ [uid] ++ r

/-- `encode_rtu(uid, r)` (R196). -/
def encodeRtu (uid : Byte) (r : List Byte) : List Byte := crcAppend ([uid] ++ r)

/-- The frame of a response PDU: it echoes the request's `uid` and, on TCP, `tid` (R159). -/
def Envelope.frame : Envelope → List Byte → List Byte
  | .tcp tid uid, r => encodeTcp tid uid r
  | .rtu uid, r => encodeRtu uid r

/-! ### The registers of an instance -/

/-- Where an instance waits for a frame to begin (spec/10_state.md R23). -/
def startPhase : Transport → Phase
  | .tcp => .tcpHdr
  | .rtu => .rtuRecv

/-- A newly created instance (spec/10_state.md R37, spec/70_reset_and_hazards.md R344). -/
def Engine.create (mode : Transport) : Engine where
  sess      := .opened
  mode      := mode
  phase     := startPhase mode
  buf       := []
  hdr       := none
  crc       := crcInit
  txPending := none
  status    := plainStatus .none
  input     := []
  output    := []

/-- `E.buf` emptied; `E.crc` is reloaded whenever it is (spec/10_state.md R26; log 13). -/
def Engine.clearBuf (E : Engine) : Engine := { E with buf := [], crc := crcInit }

/-- `E.buf` and `E.phase` at the start of the next frame, as EXEC sets them (R210). -/
def Engine.nextFrame (E : Engine) : Engine := { E.clearBuf with phase := startPhase E.mode }

/-- A frame outcome with no response (spec/42_rtu_crc.md R191, R193, R194, spec/43_dispatcher.md R211):
only `E.STATUS` records it. -/
def Engine.drop (E : Engine) (k : Kind) : Engine := { E.nextFrame with status := plainStatus k }

/-- The session closed (spec/10_state.md R21), with the outcome in `E.STATUS`. -/
def Engine.close (E : Engine) (k : Kind) : Engine :=
  { E with sess := .closed, status := plainStatus k }

/-- A built response waits for EMIT (spec/10_state.md R28). -/
def Engine.respond (E : Engine) (env : Envelope) (r : List Byte) (st : Word) : Engine :=
  { E with txPending := some { frame := env.frame r, status := st } }

/-- The transport fields of the complete frame an instance holds: the latch on TCP
(spec/41_mbap_tcp.md R153), the first buffered byte on RTU (spec/42_rtu_crc.md R194). -/
def Engine.envelope (E : Engine) : Option Envelope :=
  match E.mode with
  | .tcp => E.hdr.map fun h => .tcp h.tid h.uid
  | .rtu => E.buf.head?.map fun uid => .rtu uid

/-- Why there is no envelope. On TCP EXEC reads `E.hdr` where it holds no value: spec/10_state.md R36 has the
model fault ("A model reading it faults"). On RTU the buffer is empty (log 18). -/
def noEnvelopeFault : Transport → Fault
  | .tcp => .hdrUnloaded
  | .rtu => .noFrame

/-- The instance whose step is being taken (log 3). -/
def State.engine? (s : State) : Option Engine := s.engines[s.cur]?

/-- That instance replaced; every other one stays (spec/20_memory.md R83). -/
def State.setEngine (s : State) (E : Engine) : State := { s with engines := s.engines.set s.cur E }

/-- The unit filter accepts a frame (spec/43_dispatcher.md R211). -/
def unitAccepted (cfg : Cfg) (uid : Byte) : Bool := !cfg.unitFilterEn || uid == cfg.unitId

/-! ### Exceptions (spec/60_exceptions.md R303, R310, R311) -/

/-- Taking a wire exception: the exception response of the request waits for EMIT with its status;
nothing else is recorded, no handler is entered, the store is as it was (R303, R310, R306). `E` is the
instance already at the start of its next frame. -/
def takeException (s : State) (E : Engine) (env : Envelope) (fc : Byte) (e : WireExc) : State :=
  s.setEngine (E.respond env (encodeExc fc (excCode e)) (excStatus (excCode e)))

/-- The return: EMIT accepted. The frame goes out, `E.STATUS` takes its status, and the instance is at
the start of its next frame (R311, spec/43_dispatcher.md R216). -/
def Engine.emitAccepted (E : Engine) (p : TxPending) : Engine :=
  { E with output := E.output ++ [p.frame], status := p.status, txPending := none }

/-- EMIT failed: nothing goes out and the session closes (R216, R316). -/
def Engine.emitFailed (E : Engine) : Engine := { E with txPending := none }.close .closedTxFail

/-- FrameError on a TCP instance (spec/41_mbap_tcp.md R157). -/
def Engine.frameError (E : Engine) : Engine := E.clearBuf.close .closedFrame

/-- `Abort` at one instance (R313); a CLOSED one stays as it is. -/
def Engine.aborted (E : Engine) : Engine :=
  match E.sess with
  | .opened => { E.clearBuf with txPending := none }.close .closedAbort
  | .closed => E

/-! ### EXEC, the request step (spec/43_dispatcher.md R210) -/

/-- The request step of the current instance, which holds a complete frame: the buffer is emptied, the
unit filter is applied (R211), then the request is performed (R212 to R215) and the response or the
exception response waits for EMIT. `fc` is the request's first byte and `perform` what comes after the
filter: the codec's exception, or the store operation with its checks and the response PDU. -/
def request (fc : Byte) (perform : State → Except WireExc (State × List Byte)) (s : State) :
    Host.Outcome State Fault Refusal :=
  match s.engine? with
  | none => .fault .noInstance
  | some E =>
    match E.envelope with
    | none => .fault (noEnvelopeFault E.mode)
    | some env =>
      if unitAccepted s.cfg env.uid then
        match perform s with
        | .ok (s', r) => .next (s'.setEngine (E.nextFrame.respond env r (plainStatus .respOk)))
        | .error e => .next (takeException s E.nextFrame env fc e)
      else
        match E.mode with
        | .tcp => .next (takeException s E.nextFrame env fc .illegalFunction)
        | .rtu => .next (s.setEngine (E.drop .dropUnit))

/-- A store operation with its checks (R213): the count, the bounds, then the operation. -/
def checked (qmax count start capacity : Nat) (done : State × List Byte) :
    Except WireExc (State × List Byte) :=
  match storeCheck qmax count start capacity with
  | .ok () => .ok done
  | .error e => .error e

/-- `perform(q)` of FC1 and FC2 (R213, spec/44_read_fc01_04.md R230, R231). -/
def performReadBits (fc : Byte) (t : BitTable) (start qty : Word) (s : State) :
    Except WireExc (State × List Byte) :=
  checked Config.qmaxReadBits qty.toNat start.toNat (s.bitCapacity t)
    (s, respBits fc qty (s.memReadBits t start.toNat qty.toNat))

/-- `perform(q)` of FC3 and FC4 (R213, R232, R233). -/
def performReadWords (fc : Byte) (t : WordTable) (start qty : Word) (s : State) :
    Except WireExc (State × List Byte) :=
  checked Config.qmaxReadWords qty.toNat start.toNat (s.wordCapacity t)
    (s, respWords fc qty (s.memReadWords t start.toNat qty.toNat))

/-- `perform(q)` of the writes to COILS: the cells `vs`, then the echo of `start` and `second`
(R213). -/
def performWriteBits (fc : Byte) (qmax : Nat) (start second : Word) (vs : List Bool) (s : State) :
    Except WireExc (State × List Byte) :=
  checked qmax vs.length start.toNat (s.bitCapacity .coils)
    (s.memWriteBits .coils start.toNat vs, respEcho fc start second)

/-- `perform(q)` of the writes to HR (R213). -/
def performWriteWords (fc : Byte) (qmax : Nat) (start second : Word) (vs : List Word) (s : State) :
    Except WireExc (State × List Byte) :=
  checked qmax vs.length start.toNat (s.wordCapacity .hr)
    (s.memWriteWords .hr start.toNat vs, respEcho fc start second)

/-- A request that ends in an exception before any store operation (R212). -/
def performRaise (e : WireExc) (_ : State) : Except WireExc (State × List Byte) := .error e

end Sys2Proof.Machine
end

