-- ==== Sys2Proof/Machine/Read.lean ====
section
/-! DEFINITION. The read function codes FC1 to FC4 (spec/44_read_fc01_04.md). -/

namespace Sys2Proof.Machine

/-- ReadCoils, FC 0x01 (R230). -/
def execReadCoils (start qty : Word) (s : State) : Host.Outcome State Fault Refusal :=
  request 0x01 (performReadBits 0x01 .coils start qty) s

/-- ReadDiscreteInputs, FC 0x02 (R231). -/
def execReadDiscreteInputs (start qty : Word) (s : State) : Host.Outcome State Fault Refusal :=
  request 0x02 (performReadBits 0x02 .di start qty) s

/-- ReadHoldingRegisters, FC 0x03 (R232). -/
def execReadHoldingRegisters (start qty : Word) (s : State) : Host.Outcome State Fault Refusal :=
  request 0x03 (performReadWords 0x03 .hr start qty) s

/-- ReadInputRegisters, FC 0x04 (R233). -/
def execReadInputRegisters (start qty : Word) (s : State) : Host.Outcome State Fault Refusal :=
  request 0x04 (performReadWords 0x04 .ir start qty) s

end Sys2Proof.Machine
end

