-- ==== Sys2Proof/Machine/Unsupported.lean ====
section
/-! DEFINITION. Unsupported function codes (spec/47_unsupported_fc.md): the IllegalFunction exception,
whatever follows the function code. -/

namespace Sys2Proof.Machine

/-- Request function codes 0x80 to 0xFF (R281). -/
def execUnsupportedBit7 (fc : Byte) (_rest : List Byte) (s : State) :
    Host.Outcome State Fault Refusal :=
  request fc (performRaise .illegalFunction) s

/-- Request function codes 0x00, 0x07 to 0x0E and 0x11 to 0x7F (R280). -/
def execUnsupportedDefault (fc : Byte) (_rest : List Byte) (s : State) :
    Host.Outcome State Fault Refusal :=
  request fc (performRaise .illegalFunction) s

end Sys2Proof.Machine
end

