-- ==== Sys2Proof/Machine/Write.lean ====
section
/-! DEFINITION. The write function codes FC5 and FC6 (spec/45_write_single_fc05_06.md) and FC15 and FC16
(spec/46_write_multiple_fc15_16.md). -/

namespace Sys2Proof.Machine

/-- WriteSingleCoil, FC 0x05 (R250): 1 for the value code 0xFF00, else 0. The codec has checked the
value code (R106). -/
def execWriteSingleCoil (start value : Word) (s : State) : Host.Outcome State Fault Refusal :=
  request 0x05 (performWriteBits 0x05 Config.qmaxSingle start value [value == 0xFF00]) s

/-- WriteSingleRegister, FC 0x06 (R251). -/
def execWriteSingleRegister (start value : Word) (s : State) : Host.Outcome State Fault Refusal :=
  request 0x06 (performWriteWords 0x06 Config.qmaxSingle start value [value]) s

/-- WriteMultipleCoils, FC 0x0F (R260): the first `qty` bits of `data`; the padding bits are not
written (R263). -/
def execWriteMultipleCoils (start qty : Word) (_bc : Byte) (data : List Byte) (s : State) :
    Host.Outcome State Fault Refusal :=
  request 0x0F
    (performWriteBits 0x0F Config.qmaxWriteBits start qty (unpackBits data qty.toNat)) s

/-- WriteMultipleRegisters, FC 0x10 (R261). -/
def execWriteMultipleRegisters (start qty : Word) (_bc : Byte) (data : List Byte) (s : State) :
    Host.Outcome State Fault Refusal :=
  request 0x10
    (performWriteWords 0x10 Config.qmaxWriteWords start qty (unpackWords data qty.toNat)) s

end Sys2Proof.Machine
end

