-- ==== Sys2Proof/Machine/Dispatch.lean ====
section
/-! DEFINITION. The meaning of each instruction: EXEC of a decoded request on the current instance
(spec/43_dispatcher.md R210, R213). -/

namespace Sys2Proof.Machine

def exec (i : Instr) (s : State) : Host.Outcome State Fault Refusal :=
  match i with
  | .readCoils start qty => Sys2Proof.Machine.execReadCoils start qty s
  | .readDiscreteInputs start qty => Sys2Proof.Machine.execReadDiscreteInputs start qty s
  | .readHoldingRegisters start qty => Sys2Proof.Machine.execReadHoldingRegisters start qty s
  | .readInputRegisters start qty => Sys2Proof.Machine.execReadInputRegisters start qty s
  | .writeSingleCoil start value => Sys2Proof.Machine.execWriteSingleCoil start value s
  | .writeSingleRegister start value => Sys2Proof.Machine.execWriteSingleRegister start value s
  | .writeMultipleCoils start qty bc data => Sys2Proof.Machine.execWriteMultipleCoils start qty bc data s
  | .writeMultipleRegisters start qty bc data => Sys2Proof.Machine.execWriteMultipleRegisters start qty bc data s
  | .unsupportedBit7 fc rest => Sys2Proof.Machine.execUnsupportedBit7 fc rest s
  | .unsupportedDefault fc rest => Sys2Proof.Machine.execUnsupportedDefault fc rest s

end Sys2Proof.Machine
end

