-- ==== Sys2Proof/Machine/Codec.lean ====
section
/-! DEFINITION. Step 1 of the dispatcher (spec/43_dispatcher.md R212): a complete, delimited PDU is
decoded and executed, or its codec exception is taken. -/

namespace Sys2Proof.Machine

/-- The exception a failed check of the codec raises (spec/40_pdu_codec.md R130, R133). -/
def decodeExc : DecodeError → WireExc
  | .emptyPdu => .illegalDataValue
  | .badLength => .illegalDataValue
  | .badCoilValue => .illegalDataValue
  | .badByteCount => .illegalDataValue

/-- `decode(p)` as R130 writes it: an unsupported function code raises IllegalFunction here, where
`exec` gives it the meaning that raises it (log 14). -/
def decodeRequest (p : List Byte) : Except WireExc Instr :=
  match decode p with
  | .error e => .error (decodeExc e)
  | .ok i => if supportedFcs.contains i.fc then .ok i else .error .illegalFunction

/-- EXEC of the complete frame the current instance holds, whose PDU is `pdu` (R210): the decoded
instruction, or the codec's exception (R212). The unit filter runs first in both (log 15). -/
def execPdu (pdu : List Byte) (s : State) : Host.Outcome State Fault Refusal :=
  match decode pdu with
  | .ok i => exec i s
  | .error e => request (pdu.getD 0 0) (performRaise (decodeExc e)) s

end Sys2Proof.Machine
end

