-- ==== Sys2Proof/Machine/Rtu.lean ====
section
/-! DEFINITION. The RTU frame codec (spec/42_rtu_crc.md R188 to R195): one input item, consumed by an OPEN
instance with no response pending. -/

namespace Sys2Proof.Machine

/-- `Byte(b)` in RTU_RECV (R189): the 257th byte turns the frame into a FrameError. -/
def Engine.rtuByte (E : Engine) (b : Byte) : Engine :=
  if E.buf.length < Config.rtuFrameMax then
    { E with buf := E.buf ++ [b], crc := crcUpdate E.crc b }
  else { E.clearBuf with phase := .rtuDiscard }

/-- The PDU of a buffered frame: without the unit id and the two CRC bytes (R194). -/
def rtuPdu (f : List Byte) : List Byte := (f.drop 1).take (f.length - 3)

/-- `Gap` in RTU_RECV: no frame (R192), a frame too short (R193), a CRC mismatch or a complete frame
(R194). -/
def rtuGap (E : Engine) (s : State) : Host.Outcome State Fault Refusal :=
  if E.buf.length = 0 then .next (s.setEngine E)
  else if E.buf.length < Config.rtuFrameMin then .next (s.setEngine (E.drop .dropFrame))
  else if crcPasses E.buf then execPdu (rtuPdu E.buf) (s.setEngine E)
  else .next (s.setEngine (E.drop .dropCrc))

/-- `Eos`: any partial frame is discarded and the session closes (R195). -/
def Engine.rtuEos (E : Engine) : Engine := E.clearBuf.close .closedEos

/-- One item of an RTU stream (R188 to R195). `E` is the current instance with the item taken off its
input stream. -/
def rtuItem (E : Engine) (item : Item) (s : State) : Host.Outcome State Fault Refusal :=
  match E.phase with
  | .rtuRecv =>
    match item with
    | .byte b => .next (s.setEngine (E.rtuByte b))
    | .gap => rtuGap E s
    | .eos => .next (s.setEngine E.rtuEos)
  | .rtuDiscard =>
    match item with
    | .byte _ => .next (s.setEngine E)
    | .gap => .next (s.setEngine (E.drop .dropFrame))
    | .eos => .next (s.setEngine E.rtuEos)
  | .tcpHdr => .fault .illegalPhase
  | .tcpBody => .fault .illegalPhase

end Sys2Proof.Machine
end

