-- ==== Sys2Proof/Machine/Tcp.lean ====
section
/-! DEFINITION. The MBAP frame parser of a TCP instance (spec/41_mbap_tcp.md): one input item, consumed by
an OPEN instance with no response pending. -/

namespace Sys2Proof.Machine

/-- The header the seven collected bytes hold (R151, spec/30_encoding.md R102). -/
def headerOf (x : List Byte) : MbapHdr where
  tid := be16 x 0
  pid := be16 x 2
  len := be16 x 4
  uid := x.getD 6 0

/-- Header validation (R152). The four checks have one outcome, so their order cannot be seen. -/
def headerValid (h : MbapHdr) : Bool :=
  h.pid == 0 && h.len != 0 && h.len != 1 && decide (h.len.toNat ≤ 1 + Config.tcpPduMax)

/-- `Byte(b)` in TCP_HDR (R151, R152). A rejected header stays in the latch (log 22). -/
def Engine.headerByte (E : Engine) (b : Byte) : Engine :=
  let buf := E.buf ++ [b]
  if buf.length = 7 then
    let E' := { E with buf := buf, hdr := some (headerOf buf) }
    if headerValid (headerOf buf) then { E'.clearBuf with phase := .tcpBody } else E'.frameError
  else { E with buf := buf }

/-- `Byte(b)` in TCP_BODY (R153): the PDU is complete at `len - 1` bytes. The rule reads `E.hdr`; where it
holds no value, spec/10_state.md R36 has the model fault ("A model reading it faults"). -/
def tcpBodyByte (E : Engine) (b : Byte) (s : State) : Host.Outcome State Fault Refusal :=
  match E.hdr with
  | none => .fault .hdrUnloaded
  | some h =>
    let buf := E.buf ++ [b]
    if buf.length = h.len.toNat - 1 then execPdu buf (s.setEngine { E with buf := buf })
    else .next (s.setEngine { E with buf := buf })

/-- `Eos` in TCP_HDR: a clean end at a frame boundary (R154), else a FrameError (R155). -/
def Engine.headerEos (E : Engine) : Engine :=
  match E.buf with
  | [] => E.close .closedEos
  | _ :: _ => E.frameError

/-- One item of a TCP stream (R150 to R157). `E` is the current instance with the item taken off its
input stream. -/
def tcpItem (E : Engine) (item : Item) (s : State) : Host.Outcome State Fault Refusal :=
  match item with
  | .gap => .refused .gapToTcp
  | .byte b =>
    match E.phase with
    | .tcpHdr => .next (s.setEngine (E.headerByte b))
    | .tcpBody => tcpBodyByte E b s
    | .rtuRecv => .fault .illegalPhase
    | .rtuDiscard => .fault .illegalPhase
  | .eos =>
    match E.phase with
    | .tcpHdr => .next (s.setEngine E.headerEos)
    | .tcpBody => .next (s.setEngine E.frameError)
    | .rtuRecv => .fault .illegalPhase
    | .rtuDiscard => .fault .illegalPhase

end Sys2Proof.Machine
end

