-- ==== Sys2Proof/Machine/Environment.lean ====
section
/-! DEFINITION. What one event of the schedule does (log 2): the steps of an instance and the steps of the
host (spec/60_exceptions.md, spec/70_reset_and_hazards.md). -/

namespace Sys2Proof.Machine

/-- How many instances are OPEN (spec/60_exceptions.md R321). -/
def State.openCount (s : State) : Nat := s.engines.countP fun E => E.sess == .opened

/-- `MAX_SESSIONS` admits one more (R321). -/
def State.roomForSession (s : State) : Bool :=
  match s.maxSessions with
  | none => true
  | some n => decide (s.openCount < n)

/-- The listener hands over a stream (R321, R322, spec/70_reset_and_hazards.md R343, R344). -/
def connect (s : State) : Host.Outcome State Fault Refusal :=
  match s.epoch with
  | .ended => .refused .epochEnded
  | .running =>
    let opened : State := { s with engines := s.engines ++ [Engine.create s.cfg.mode] }
    match s.cfg.mode with
    | .tcp => if s.roomForSession then .next opened else .refused .sessionLimit
    | .rtu => if s.engines.length = 0 then .next opened else .refused .rtuSingleSession

/-- The host feeds one item to the input stream of instance `k` (spec/10_state.md R20). A TCP stream has
no `Gap` (spec/41_mbap_tcp.md R150). A CLOSED instance never takes it (log 23). -/
def feed (k : Nat) (item : Item) (s : State) : Host.Outcome State Fault Refusal :=
  match s.engines[k]? with
  | none => .refused .noSuchSession
  | some E =>
    if E.mode = .tcp ∧ item = .gap then .refused .gapToTcp
    else .next { s with engines := s.engines.set k { E with input := E.input ++ [item] } }

/-- The item rules of an instance, by its transport. -/
def itemRule (E : Engine) (item : Item) (s : State) : Host.Outcome State Fault Refusal :=
  match E.mode with
  | .tcp => tcpItem E item s
  | .rtu => rtuItem E item s

/-- Instance `k` consumes its next item. Not enabled where it is CLOSED (spec/10_state.md R21), a
response is pending (spec/43_dispatcher.md R217) or no item has come (spec/41_mbap_tcp.md R161): then
nothing happens. -/
def consume (k : Nat) (s : State) : Host.Outcome State Fault Refusal :=
  match s.engines[k]? with
  | none => .refused .noSuchSession
  | some E =>
    match E.sess, E.txPending, E.input with
    | .opened, none, item :: rest =>
      itemRule { E with input := rest } item { s with cur := k }
    | _, _, _ => .next s

/-- The EMIT step of instance `k`, enabled where a response is pending and the session is OPEN
(spec/43_dispatcher.md R216); otherwise nothing happens. -/
def emit (k : Nat) (accepted : Bool) (s : State) : Host.Outcome State Fault Refusal :=
  match s.engines[k]? with
  | none => .refused .noSuchSession
  | some E =>
    match E.sess, E.txPending with
    | .opened, some p =>
      .next ({ s with cur := k }.setEngine (if accepted then E.emitAccepted p else E.emitFailed))
    | _, _ => .next s

/-- The process-wide shutdown (spec/60_exceptions.md R313). The store keeps every completed operation
(R314), and the reset epoch ends (spec/70_reset_and_hazards.md R340). -/
def abort (s : State) : State :=
  { s with engines := s.engines.map Engine.aborted, epoch := .ended }

/-- The simulation hook on a table of bits (spec/20_memory.md R65). -/
def hostWriteBits (t : BitTable) (a : Nat) (vs : List Bool) (s : State) :
    Host.Outcome State Fault Refusal :=
  match s.epoch with
  | .ended => .refused .epochEnded
  | .running =>
    if a + vs.length ≤ s.bitCapacity t then .next (s.memWriteBits t a vs)
    else .refused .hostWriteOutOfRange

/-- The simulation hook on a table of words (R65). -/
def hostWriteWords (t : WordTable) (a : Nat) (vs : List Word) (s : State) :
    Host.Outcome State Fault Refusal :=
  match s.epoch with
  | .ended => .refused .epochEnded
  | .running =>
    if a + vs.length ≤ s.wordCapacity t then .next (s.memWriteWords t a vs)
    else .refused .hostWriteOutOfRange

/-- A process start (spec/70_reset_and_hazards.md R340 to R343, R346): only after the epoch ended, with
parameters of R5 and R6. The environment's schedule goes on. -/
def restart (p : Params) (s : State) : Host.Outcome State Fault Refusal :=
  match s.epoch with
  | .running => .refused .softReset
  | .ended =>
    if ¬p.typed then .refused .illegalParameter
    else if ¬p.preset.addressable then .refused .capacityTooLarge
    else .next { State.boot p with schedule := s.schedule }

/-- One event. -/
def stepEvent (e : Event) (s : State) : Host.Outcome State Fault Refusal :=
  match e with
  | .connect => connect s
  | .feed k item => feed k item s
  | .consume k => consume k s
  | .emit k accepted => emit k accepted s
  | .abort => .next (abort s)
  | .hostWriteBits t a vs => hostWriteBits t a vs s
  | .hostWriteWords t a vs => hostWriteWords t a vs s
  | .reconfigure _ => .refused .reconfigured
  | .restart p => restart p s

/-- An instance about to take the last item of a frame whose PDU is `pdu`, addressed to the configured
unit: on TCP the header is latched and all but the last byte is collected, on RTU the frame with its
CRC is buffered and the gap is next (log 20). -/
def Engine.withRequest (E : Engine) (unit : Byte) (pdu : List Byte) : Engine :=
  match E.mode with
  | .tcp =>
    { E with
      sess := .opened, txPending := none, phase := .tcpBody, buf := pdu.dropLast,
      hdr := some { tid := 0, pid := 0, len := BitVec.ofNat 16 (1 + pdu.length), uid := unit },
      input := .byte (pdu.getLastD 0) :: E.input }
  | .rtu =>
    { E with
      sess := .opened, txPending := none, phase := .rtuRecv, buf := encodeRtu unit pdu,
      crc := crc16 (encodeRtu unit pdu), input := .gap :: E.input }

/-- The state with `pdu` where the next step takes its request: at the current instance, or at a new one
where `cur` names none, with that instance's step next in the schedule (log 20). -/
def State.withRequest (s : State) (pdu : List Byte) : State :=
  match s.engine? with
  | some E =>
    { s.setEngine (E.withRequest s.cfg.unitId pdu) with schedule := .consume s.cur :: s.schedule }
  | none =>
    { s with
      engines := s.engines ++ [(Engine.create s.cfg.mode).withRequest s.cfg.unitId pdu],
      cur := s.engines.length, schedule := .consume s.engines.length :: s.schedule }

end Sys2Proof.Machine
end

