-- ==== Sys2Proof/Machine/Step.lean ====
section
/-! DEFINITION. One step of the block: the next event of the schedule, or, with none, every instance waits
(spec/60_exceptions.md R320, R324). -/

namespace Sys2Proof.Machine

/-- One step. -/
def step (s : State) : Host.Outcome State Fault Refusal :=
  match s.schedule with
  | [] => .next s
  | e :: rest => stepEvent e { s with schedule := rest }

/-- The state with the instruction whose bits are `w` where `step` takes its next request (log 20). -/
def State.withFetchWord (s : State) (nbits w : Nat) : State := s.withRequest (tablePdu nbits w)

end Sys2Proof.Machine
end

