-- ==== Sys2Proof/Machine/Assembly.lean ====
section
/-! DEFINITION. The request syntax of spec/30_encoding.md R114 and the bytes of each form. -/

namespace Sys2Proof.Machine

/-- `pdu` of R114. -/
inductive PduText where
  | readCoils (start count : Word)
  | readDiscreteInputs (start count : Word)
  | readHoldingRegisters (start count : Word)
  | readInputRegisters (start count : Word)
  | writeSingleCoil (address : Word) (value : Bool)
  | writeSingleRegister (address value : Word)
  | writeMultipleCoils (start : Word) (values : List Bool)
  | writeMultipleRegisters (start : Word) (values : List Word)
  | pdu (bytes : List Byte)
  deriving DecidableEq, Repr

/-- `frame` of R114; an absent field takes the value R114 gives it. -/
inductive FrameText where
  | tcp (tid : Word) (uid : Byte) (pid len : Option Word) (p : PduText)
  | rtu (uid : Byte) (crc : Option Word) (p : PduText)
  | raw (bytes : List Byte)
  deriving DecidableEq, Repr

/-- A response of R114. The bytes of `Resp` are those after the function code (log 25). -/
inductive ResponseText where
  | resp (fc : Byte) (bytes : List Byte)
  | exc (fc code : Byte)
  | none
  deriving DecidableEq, Repr

/-- The PDU of each form (R93 to R95, R101, R106): in the `WriteMultiple` forms `qty` is the number of
values, `bc` the consistent byte count, and the padding bits are 0. A list of values too long for a
consistent `qty` or `bc` has no bytes in R114: that the two fields then hold its length and byte count
modulo 65536 and 256 is DESIGN CHOICE (log 26). -/
def pduTextBytes : PduText → List Byte
  | .readCoils start count => 0x01 :: (BE16 start ++ BE16 count)
  | .readDiscreteInputs start count => 0x02 :: (BE16 start ++ BE16 count)
  | .readHoldingRegisters start count => 0x03 :: (BE16 start ++ BE16 count)
  | .readInputRegisters start count => 0x04 :: (BE16 start ++ BE16 count)
  | .writeSingleCoil address value =>
    0x05 :: (BE16 address ++ BE16 (if value then 0xFF00 else 0x0000))
  | .writeSingleRegister address value => 0x06 :: (BE16 address ++ BE16 value)
  | .writeMultipleCoils start values =>
    0x0F :: (BE16 start ++ BE16 (BitVec.ofNat 16 values.length)
      ++ BitVec.ofNat 8 (ceil8 values.length) :: pack values)
  | .writeMultipleRegisters start values =>
    0x10 :: (BE16 start ++ BE16 (BitVec.ofNat 16 values.length)
      ++ BitVec.ofNat 8 (2 * values.length) :: wordBytes values)
  | .pdu bytes => bytes

/-- The frame of each form (R102, R104). A PDU too long for the `len` field has no frame in R114: that the
field then holds `1 + len(pdu)` modulo 65536 is DESIGN CHOICE (log 26). -/
def frameTextBytes : FrameText → List Byte
  | .tcp tid uid pid len p =>
    BE16 tid ++ BE16 (pid.getD 0)
      ++ BE16 (len.getD (BitVec.ofNat 16 (1 + (pduTextBytes p).length))) ++ [uid] ++ pduTextBytes p
  | .rtu uid crc p =>
    let body := [uid] ++ pduTextBytes p
    body ++ LE16 (crc.getD (crc16 body))
  | .raw bytes => bytes

/-- The response PDU of each form, if a frame is emitted. -/
def responseTextBytes : ResponseText → Option (List Byte)
  | .resp fc bytes => some (fc :: bytes)
  | .exc fc code => some (encodeExc fc code)
  | .none => Option.none

end Sys2Proof.Machine
end

