-- ==== Sys2Proof/Safety.lean ====
section
/-! DEFINITION. What a safe state is, and the terms in which claims are stated: an instance that serves a
request, an instance that receives an item, the state EXEC leaves. -/

namespace Sys2Proof.Machine

/-! ### The invariant -/

/-- A latched header under which `n` bytes of a PDU are still incomplete (spec/41_mbap_tcp.md R152,
R153). -/
abbrev bodyFits (n : Nat) (hdr : Option MbapHdr) : Prop :=
  ∃ h ∈ hdr, headerValid h = true ∧ n + 1 < h.len.toNat

/-- The status values of frame outcomes, KIND 0 to 5 (spec/10_state.md R29). -/
def openStatuses : List Word := [0x0000, 0x0001, 0x0102, 0x0202, 0x0302, 0x0003, 0x0004, 0x0005]

/-- The status values of session ends, KIND 6 to 9 (R29). -/
def closedStatuses : List Word := [0x0006, 0x0007, 0x0008, 0x0009]

/-- The status values EMIT may write: a normal response, or one of the three exceptions (R29,
spec/60_exceptions.md R301). -/
def responseStatuses : List Word := [0x0001, 0x0102, 0x0202, 0x0302]

/-- The phase is one of the instance's mode (R23). -/
abbrev Engine.phaseLegal (E : Engine) : Prop :=
  (E.mode = .tcp → E.phase = .tcpHdr ∨ E.phase = .tcpBody) ∧
  (E.mode = .rtu → E.phase = .rtuRecv ∨ E.phase = .rtuDiscard)

/-- `E.buf` is within its capacity (R24), and at a frame boundary or inside an incomplete frame. -/
abbrev Engine.bufLegal (E : Engine) : Prop :=
  (E.phase = .tcpHdr → E.buf.length < 7) ∧
  (E.phase = .tcpBody → bodyFits E.buf.length E.hdr) ∧
  (E.phase = .rtuRecv → E.buf.length ≤ 256) ∧
  (E.phase = .rtuDiscard → E.buf = [])

/-- `E.crc` is the CRC-16 of `E.buf` (R26), and an RTU instance has no `E.hdr` (R25). -/
abbrev Engine.rtuLegal (E : Engine) : Prop :=
  E.mode = .rtu → E.crc = crc16 E.buf ∧ E.hdr = none

/-- A pending response belongs to an OPEN session at the start of its next frame (R28,
spec/43_dispatcher.md R216). -/
abbrev Engine.txLegal (E : Engine) : Prop :=
  (∀ p ∈ E.txPending, p.status ∈ responseStatuses) ∧
  (E.txPending ≠ none → E.sess = .opened ∧ E.buf = [] ∧ E.phase = startPhase E.mode)

/-- `E.STATUS` holds a value the rules write: the reserved bits read 0, and the KIND of a session end
is there exactly when the session is CLOSED (R29). -/
abbrev Engine.statusLegal (E : Engine) : Prop :=
  (E.sess = .opened → E.status ∈ openStatuses) ∧ (E.sess = .closed → E.status ∈ closedStatuses)

/-- What every rule keeps of one instance of an epoch whose transport is `mode` (R22). -/
abbrev Engine.Inv (mode : Transport) (E : Engine) : Prop :=
  E.mode = mode ∧ E.phaseLegal ∧ E.bufLegal ∧ E.rtuLegal ∧ E.txLegal ∧ E.statusLegal ∧
  (E.mode = .tcp → Item.gap ∉ E.input)

/-- At most `MAX_SESSIONS` instances are OPEN (spec/60_exceptions.md R321). -/
abbrev State.sessionsWithin (s : State) : Prop := ∀ n ∈ s.maxSessions, s.openCount ≤ n

/-- What every step keeps. -/
abbrev State.Inv (s : State) : Prop :=
  Memory.wf s.preset s.store ∧ s.preset.addressable ∧
  (∀ E ∈ s.engines, Engine.Inv s.cfg.mode E) ∧
  (s.cfg.mode = .rtu → s.engines.length ≤ 1) ∧
  (s.cfg.mode = .tcp → s.sessionsWithin) ∧
  (s.epoch = .ended → ∀ E ∈ s.engines, E.sess = .closed)

/-! ### The terms of the claims -/

/-- The current instance `E` holds a complete frame with the transport fields `env`, and the unit filter
accepts it: the normal case of EXEC (spec/43_dispatcher.md R210, R211). -/
abbrev Serving (s : State) (E : Engine) (env : Envelope) : Prop :=
  s.engine? = some E ∧ E.envelope = some env ∧ unitAccepted s.cfg env.uid = true

/-- The state EXEC leaves (R210): the response PDU `r`, framed for the request, waits with its status;
the buffer is empty, the CRC reloaded (log 13) and the phase that of the next frame; the store is `m`.
Everything else is as in `s`. -/
def afterExec (s : State) (E : Engine) (env : Envelope) (r : List Byte) (st : Word) (m : Memory) :
    State :=
  { s with
    store := m
    engines := s.engines.set s.cur
      { E with
        buf := [], crc := 0xFFFF, phase := startPhase E.mode,
        txPending := some { frame := env.frame r, status := st } } }

/-- Instance `k` is OPEN, has no response pending, and `item` is the next of its input stream: the rules
of spec/41_mbap_tcp.md and spec/42_rtu_crc.md act. -/
abbrev Receiving (s : State) (k : Nat) (E : Engine) (item : Item) (more : List Item) : Prop :=
  s.engines[k]? = some E ∧ E.sess = .opened ∧ E.txPending = none ∧ E.input = item :: more

/-- Instance `k` replaced by `E` in a step of that instance. -/
def withEngine (s : State) (k : Nat) (E : Engine) : State :=
  { s with cur := k, engines := s.engines.set k E }

/-- The store of `t` reads as that of `s` at every address of every table. -/
def sameCells (s t : State) : Prop :=
  (∀ tab a, t.bit? tab a = s.bit? tab a) ∧ (∀ tab a, t.word? tab a = s.word? tab a)

/-- One bit of a byte string flipped, bit `k mod 8` of byte `k div 8` (spec/42_rtu_crc.md R187). -/
def flipBit (x : List Byte) (k : Nat) : List Byte := x.modify (k / 8) fun b => b ^^^ (1#8 <<< (k % 8))

/-- `decode(p)` transcribed line by line from the pseudocode of spec/40_pdu_codec.md R130, with `p[i]` and
`len(p)`; the codec of Decode.lean is compared with it. -/
def decodeByRule (p : List Byte) : Except WireExc Instr :=
  let fc := p.getD 0 0
  if fc ∉ supportedFcs then .error .illegalFunction
  else if fc = 0x01 ∨ fc = 0x02 ∨ fc = 0x03 ∨ fc = 0x04 then
    if p.length ≠ 5 then .error .illegalDataValue
    else if fc = 0x01 then .ok (.readCoils (be16 p 1) (be16 p 3))
    else if fc = 0x02 then .ok (.readDiscreteInputs (be16 p 1) (be16 p 3))
    else if fc = 0x03 then .ok (.readHoldingRegisters (be16 p 1) (be16 p 3))
    else .ok (.readInputRegisters (be16 p 1) (be16 p 3))
  else if fc = 0x05 then
    if p.length ≠ 5 then .error .illegalDataValue
    else if be16 p 3 ≠ 0xFF00 ∧ be16 p 3 ≠ 0x0000 then .error .illegalDataValue
    else .ok (.writeSingleCoil (be16 p 1) (be16 p 3))
  else if fc = 0x06 then
    if p.length ≠ 5 then .error .illegalDataValue
    else .ok (.writeSingleRegister (be16 p 1) (be16 p 3))
  else
    let bc := p.getD 5 0
    let need := if fc = 0x0F then ((be16 p 3).toNat + 7) / 8 else 2 * (be16 p 3).toNat
    if p.length < 6 then .error .illegalDataValue
    else if p.length ≠ 6 + bc.toNat then .error .illegalDataValue
    else if bc.toNat ≠ need then .error .illegalDataValue
    else if fc = 0x0F then .ok (.writeMultipleCoils (be16 p 1) (be16 p 3) bc (p.drop 6))
    else .ok (.writeMultipleRegisters (be16 p 1) (be16 p 3) bc (p.drop 6))

/-- An event of the wire or of the epoch, not of the simulation hook and not a new process start. -/
def wireEvent : Event → Bool
  | .connect => true
  | .feed _ _ => true
  | .consume _ => true
  | .emit _ _ => true
  | .abort => true
  | .hostWriteBits _ _ _ => false
  | .hostWriteWords _ _ _ => false
  | .reconfigure _ => true
  | .restart _ => false

end Sys2Proof.Machine
end

