-- ==== Sys2Proof/Certificates/Slice0/Obligations.lean ====
section
/-! DEFINITION. The statements for the provers. Each docstring names the rule of spec/ it formalises; where
a clause rests on a choice of the spec's own decisions (spec/92_eei_decisions.md) or of the model's
assumption log, the docstring says so. -/

open Sys2Proof Sys2Proof.Machine

/-! ### Encoding -/

/-- spec/30_encoding.md R111, both directions. An unsupported function code is an instruction of its
own (log 14), so the second direction holds of it too. -/
def Obligations.DecodeAndEncodeAreInverse : Prop :=
  (∀ i : Instr, i.WellFormed → decode (encode i) = .ok i) ∧
  (∀ (p : List Byte) (i : Instr), decode p = .ok i → i.WellFormed ∧ encode i = p)

/-- The eight request PDUs of spec/95_test_vectors.md T1 decode as T1 lists them. V5 lists only responses for
`83 00 00` and `07`, where R130 raises IllegalFunction inside `decode`: that an unsupported code is an
instruction of its own, which the last two clauses show, is log 14. -/
def Obligations.SpecVectorsDecodeAsListed : Prop :=
  decode [0x01, 0x00, 0x00, 0x00, 0x04] = .ok (.readCoils 0 4) ∧
  decode [0x02, 0x00, 0x30, 0x00, 0x04] = .ok (.readDiscreteInputs 48 4) ∧
  decode [0x03, 0x00, 0x05, 0x00, 0x01] = .ok (.readHoldingRegisters 5 1) ∧
  decode [0x04, 0x00, 0x00, 0x00, 0x02] = .ok (.readInputRegisters 0 2) ∧
  decode [0x05, 0x00, 0x01, 0xFF, 0x00] = .ok (.writeSingleCoil 1 0xFF00) ∧
  decode [0x06, 0x00, 0x05, 0x00, 0x2A] = .ok (.writeSingleRegister 5 42) ∧
  decode [0x0F, 0x00, 0x00, 0x00, 0x03, 0x01, 0xFF] = .ok (.writeMultipleCoils 0 3 1 [0xFF]) ∧
  decode [0x10, 0x00, 0x01, 0x00, 0x02, 0x04, 0x00, 0x0A, 0x01, 0x02] =
    .ok (.writeMultipleRegisters 1 2 4 [0x00, 0x0A, 0x01, 0x02]) ∧
  decode [0x83, 0x00, 0x00] = .ok (.unsupportedBit7 0x83 [0x00, 0x00]) ∧
  decode [0x07] = .ok (.unsupportedDefault 0x07 [])

/-- The decoder is the pseudocode of spec/40_pdu_codec.md R130, for every PDU of at least one byte. The
layouts and the FC5, FC15 and FC16 checks are the spec's own decisions D16, D17 and D20. -/
def Obligations.DecoderIsThePseudocodeOfTheCodec : Prop :=
  ∀ p : List Byte, p ≠ [] → decodeRequest p = decodeByRule p

/-- spec/40_pdu_codec.md R133, with the format lengths of spec/30_encoding.md R92: a supported function
code with another length is IllegalDataValue. That trailing bytes count is the spec's decision D16. -/
def Obligations.WrongLengthRaisesIllegalDataValue : Prop :=
  (∀ (fc : Byte) (rest : List Byte), fc ∈ [0x01, 0x02, 0x03, 0x04, 0x05, 0x06] → rest.length ≠ 4 →
    decodeRequest (fc :: rest) = .error .illegalDataValue) ∧
  (∀ (fc : Byte) (rest : List Byte), fc ∈ [0x0F, 0x10] → rest.length < 5 →
    decodeRequest (fc :: rest) = .error .illegalDataValue) ∧
  (∀ (fc a b c d bc : Byte) (data : List Byte), fc ∈ [0x0F, 0x10] → data.length ≠ bc.toNat →
    decodeRequest (fc :: a :: b :: c :: d :: bc :: data) = .error .illegalDataValue)

/-- spec/40_pdu_codec.md R132: exactly the codes outside the supported set raise IllegalFunction in the
codec, whatever follows; they are 0, 7 to 14 and 17 to 255 (spec/30_encoding.md R105). The set is the
document's minimum set, taken as exact by the spec's decision D23. -/
def Obligations.ExactlyTheUnsupportedCodesRaiseIllegalFunction : Prop :=
  (∀ (fc : Byte) (rest : List Byte),
    decodeRequest (fc :: rest) = .error .illegalFunction ↔ fc ∉ supportedFcs) ∧
  (∀ fc : Byte, fc ∉ supportedFcs ↔
    fc.toNat = 0 ∨ (7 ≤ fc.toNat ∧ fc.toNat ≤ 14) ∨ 17 ≤ fc.toNat)

/-- spec/30_encoding.md R101: bit `i` of the list is bit `i mod 8` of byte `i div 8`, the unused high
bits are 0, and the data of an FC15 request unpacks to the bits that were packed. The packing is the
spec's decision D19. -/
def Obligations.BitPackingIsLeastSignificantFirst : Prop :=
  ∀ bits : List Bool,
    (pack bits).length = (bits.length + 7) / 8 ∧
    (∀ i j, j < 8 → ((pack bits).getD i 0).getLsbD j = bits.getD (8 * i + j) false) ∧
    unpackBits (pack bits) bits.length = bits

/-- The assembler forms of the multiple writes (spec/30_encoding.md R114) decode to requests whose data
hold the values they were written with. The grammar is the spec's decision D16. -/
def Obligations.AssembledMultipleWritesDecodeToTheirValues : Prop :=
  (∀ (start : Word) (values : List Bool), values.length ≤ 1968 →
    ∃ bc data, decode (pduTextBytes (.writeMultipleCoils start values)) =
        .ok (.writeMultipleCoils start (BitVec.ofNat 16 values.length) bc data) ∧
      unpackBits data values.length = values) ∧
  (∀ (start : Word) (values : List Word), values.length ≤ 123 →
    ∃ bc data, decode (pduTextBytes (.writeMultipleRegisters start values)) =
        .ok (.writeMultipleRegisters start (BitVec.ofNat 16 values.length) bc data) ∧
      unpackWords data values.length = values)

/-! ### CRC-16/MODBUS -/

/-- The check values of spec/42_rtu_crc.md R181, R182 and R185. The loop and the absence of a final XOR
are the spec's decision D34. -/
def Obligations.CrcCheckValues : Prop :=
  crcUpdate 0xFFFF 0x01 = 0x807E ∧
  crc16 [] = 0xFFFF ∧
  crc16 [0x31, 0x32, 0x33, 0x34, 0x35, 0x36, 0x37, 0x38, 0x39] = 0x4B37 ∧
  crcAppend [0x01, 0x03, 0x00, 0x00, 0x00, 0x0A] =
    [0x01, 0x03, 0x00, 0x00, 0x00, 0x0A, 0xC5, 0xCD]

/-- spec/42_rtu_crc.md R183 (an inference the spec draws from R181): the table is the one R181 gives,
and the table-driven step is `crc_update` for every register value and byte. -/
def Obligations.TableDrivenCrcIsTheBitwiseCrc : Prop :=
  (∀ i, i < 256 → crcTable[i]? = some (crcUpdate 0x0000 (BitVec.ofNat 8 i))) ∧
  (∀ (c : Word) (b : Byte), crcTableStep c b = crcUpdate c b)

/-- spec/42_rtu_crc.md R186 (an inference of the spec): the two forms of the frame check agree, and a
string with its CRC appended passes (R185). -/
def Obligations.FrameCheckFormsAgree : Prop :=
  (∀ f : List Byte, 2 ≤ f.length → (crcMatches f = true ↔ crcPasses f = true)) ∧
  (∀ x : List Byte, crcMatches (crcAppend x) = true)

/-- spec/42_rtu_crc.md R187: a flipped bit changes the CRC, and a frame with one flipped bit, in its body
or in its CRC bytes, fails the check of R186. -/
def Obligations.SingleBitErrorsAreAlwaysDetected : Prop :=
  (∀ (x : List Byte) (k : Nat), k < 8 * x.length → crc16 (flipBit x k) ≠ crc16 x) ∧
  (∀ (f : List Byte) (k : Nat), 4 ≤ f.length → crcMatches f = true → k < 8 * f.length →
    crcMatches (flipBit f k) = false)

/-! ### Reset and sessions -/

/-- spec/70_reset_and_hazards.md R341: at reset every cell of every table holds `PRESET`, so no cell is
unset. For every parameter set. -/
def Obligations.ResetStoreHoldsThePreset : Prop :=
  ∀ p : Params,
    (∀ a, (State.boot p).bit? .coils a = p.preset.coils[a]?) ∧
    (∀ a, (State.boot p).bit? .di a = p.preset.di[a]?) ∧
    (∀ a, (State.boot p).word? .hr a = p.preset.hr[a]?) ∧
    (∀ a, (State.boot p).word? .ir a = p.preset.ir[a]?)

/-- The document's preset at `State.reset` (spec/20_memory.md R66), cell by cell, with capacity 100. It is
the default of `PRESET` by the spec's decision D25. -/
def Obligations.DefaultPresetCells : Prop :=
  (∀ i, i < 100 →
    State.reset.word? .hr i = some (BitVec.ofNat 16 i) ∧
    State.reset.word? .ir i = some (BitVec.ofNat 16 (1000 + i)) ∧
    State.reset.bit? .coils i = some (decide (i % 2 = 0)) ∧
    State.reset.bit? .di i = some (decide (i < 50))) ∧
  (∀ i, 100 ≤ i →
    State.reset.word? .hr i = none ∧ State.reset.word? .ir i = none ∧
    State.reset.bit? .coils i = none ∧ State.reset.bit? .di i = none)

/-- spec/70_reset_and_hazards.md R342: at reset the configuration registers take their parameters and keep
them for the epoch; spec/20_memory.md R61: no capacity ever changes. Only a new process start, a new
epoch (log 17), sets them again. -/
def Obligations.ConfigurationIsFixedForTheEpoch : Prop :=
  (∀ p : Params, (State.boot p).cfg.mode = p.mode ∧ (State.boot p).cfg.unitId = p.unitId ∧
    (State.boot p).cfg.unitFilterEn = p.unitFilterEn) ∧
  (∀ s t : State, step s = .next t → (∀ p, s.schedule.head? ≠ some (.restart p)) →
    t.cfg = s.cfg ∧ t.preset = s.preset ∧ t.maxSessions = s.maxSessions ∧ t.baud = s.baud)

/-- spec/70_reset_and_hazards.md R343 and R344: at reset no instance exists, and a new one starts in the
reset state of an instance; nothing else changes. A TCP connection needs room under `MAX_SESSIONS`
(spec/60_exceptions.md R321), the RTU instance needs to be the only one (R322). -/
def Obligations.NewInstanceStartsInItsResetState : Prop :=
  (∀ p : Params, (State.boot p).engines = []) ∧
  (∀ (s : State) (rest : List Event), s.schedule = .connect :: rest → s.epoch = .running →
    s.cfg.mode = .tcp → (∀ n, s.maxSessions = some n → s.openCount < n) →
    step s = .next { s with
      schedule := rest
      engines := s.engines ++ [{
        sess := .opened, mode := .tcp, phase := .tcpHdr, buf := [], hdr := none, crc := 0xFFFF,
        txPending := none, status := 0x0000, input := [], output := [] }] }) ∧
  (∀ (s : State) (rest : List Event), s.schedule = .connect :: rest → s.epoch = .running →
    s.cfg.mode = .rtu → s.engines = [] →
    step s = .next { s with
      schedule := rest
      engines := [{
        sess := .opened, mode := .rtu, phase := .rtuRecv, buf := [], hdr := none, crc := 0xFFFF,
        txPending := none, status := 0x0000, input := [], output := [] }] })

/-- What the spec says the model refuses: a connection beyond `MAX_SESSIONS` (spec/60_exceptions.md R321),
a second RTU session (R322), a `Gap` to a TCP instance (spec/41_mbap_tcp.md R150), a change of
configuration (spec/10_state.md R31), a hook write out of range of any table (spec/20_memory.md R65), a
capacity above 65536 of any table at a start (spec/00_scope.md R6). The spec's decisions D1, D2, D3,
D33; the names are log 16. -/
def Obligations.HostRequestsTheSpecRefusesAreRefused : Prop :=
  (∀ (s : State) (rest : List Event) (n : Nat), s.schedule = .connect :: rest → s.epoch = .running →
    s.cfg.mode = .tcp → s.maxSessions = some n → n ≤ s.openCount →
    step s = .refused .sessionLimit) ∧
  (∀ (s : State) (rest : List Event), s.schedule = .connect :: rest → s.epoch = .running →
    s.cfg.mode = .rtu → s.engines ≠ [] → step s = .refused .rtuSingleSession) ∧
  (∀ (s : State) (rest : List Event) (k : Nat) (E : Engine), s.schedule = .feed k .gap :: rest →
    s.engines[k]? = some E → E.mode = .tcp → step s = .refused .gapToTcp) ∧
  (∀ (s : State) (rest : List Event) (p : Params), s.schedule = .reconfigure p :: rest →
    step s = .refused .reconfigured) ∧
  (∀ (s : State) (rest : List Event) (tab : BitTable) (a : Nat) (vs : List Bool),
    s.schedule = .hostWriteBits tab a vs :: rest → s.epoch = .running →
    s.bitCapacity tab < a + vs.length → step s = .refused .hostWriteOutOfRange) ∧
  (∀ (s : State) (rest : List Event) (tab : WordTable) (a : Nat) (vs : List Word),
    s.schedule = .hostWriteWords tab a vs :: rest → s.epoch = .running →
    s.wordCapacity tab < a + vs.length → step s = .refused .hostWriteOutOfRange) ∧
  (∀ (s : State) (rest : List Event) (p : Params), s.schedule = .restart p :: rest →
    s.epoch = .ended → p.typed → ¬p.preset.addressable → step s = .refused .capacityTooLarge)

/-- A process start (spec/70_reset_and_hazards.md R340 to R343): after the epoch ended, with parameters of
spec/00_scope.md R5 and R6, the step answers the reset state of those parameters, so no cell, session,
status or configuration of the old epoch is left ("no persistence of register values across
restarts"). Within an epoch there is no reset: the event is refused. The event, its refusal's name and
the schedule that goes on are the model's (log 17). -/
def Obligations.ProcessStartGivesTheResetState : Prop :=
  (∀ (s : State) (rest : List Event) (p : Params), s.schedule = .restart p :: rest →
    s.epoch = .ended → p.typed → p.preset.addressable →
    step s = .next { State.boot p with schedule := rest }) ∧
  (∀ (s : State) (rest : List Event) (p : Params), s.schedule = .restart p :: rest →
    s.epoch = .running → step s = .refused .softReset)

/-! ### Store operations -/

/-- spec/20_memory.md R71: `MemWrite(T, a, vs)` sets `T[a+i]` to `vs[i]` and has no effect beyond the
targeted cells; its condition is the bounds check of R73. -/
def Obligations.MemWriteSetsExactlyTheTargetCells : Prop :=
  (∀ (s : State) (t : BitTable) (a : Nat) (vs : List Bool),
    a + vs.length ≤ s.bitCapacity t →
    (∀ i, i < vs.length → (s.memWriteBits t a vs).bit? t (a + i) = vs[i]?) ∧
    (∀ b, ¬(a ≤ b ∧ b < a + vs.length) → (s.memWriteBits t a vs).bit? t b = s.bit? t b) ∧
    (∀ t' b, t' ≠ t → (s.memWriteBits t a vs).bit? t' b = s.bit? t' b) ∧
    (∀ t' b, (s.memWriteBits t a vs).word? t' b = s.word? t' b)) ∧
  (∀ (s : State) (t : WordTable) (a : Nat) (vs : List Word),
    a + vs.length ≤ s.wordCapacity t →
    (∀ i, i < vs.length → (s.memWriteWords t a vs).word? t (a + i) = vs[i]?) ∧
    (∀ b, ¬(a ≤ b ∧ b < a + vs.length) → (s.memWriteWords t a vs).word? t b = s.word? t b) ∧
    (∀ t' b, t' ≠ t → (s.memWriteWords t a vs).word? t' b = s.word? t' b) ∧
    (∀ t' b, (s.memWriteWords t a vs).bit? t' b = s.bit? t' b))

/-- The model's form of memory (log 8): two stores in canonical form that read the same at every address
are equal. -/
def Obligations.CanonicalStoresThatReadAlikeAreEqual : Prop :=
  ∀ (s t : State), s.preset = t.preset → Memory.wf s.preset s.store → Memory.wf t.preset t.store →
    sameCells s t → s.store = t.store

/-- spec/20_memory.md R65: the host's hook writes any table in one step and changes nothing else, within
the capacity. The interface of the hook is the spec's decision D33. -/
def Obligations.HostWriteChangesOnlyItsCells : Prop :=
  (∀ (s : State) (rest : List Event) (tab : BitTable) (a : Nat) (vs : List Bool),
    s.schedule = .hostWriteBits tab a vs :: rest → s.epoch = .running →
    a + vs.length ≤ s.bitCapacity tab →
    ∃ m, step s = .next { s with schedule := rest, store := m } ∧
      (∀ tab' b, ({ s with store := m } : State).bit? tab' b =
        if tab' = tab ∧ a ≤ b ∧ b < a + vs.length then vs[b - a]? else s.bit? tab' b) ∧
      (∀ tab' b, ({ s with store := m } : State).word? tab' b = s.word? tab' b)) ∧
  (∀ (s : State) (rest : List Event) (tab : WordTable) (a : Nat) (vs : List Word),
    s.schedule = .hostWriteWords tab a vs :: rest → s.epoch = .running →
    a + vs.length ≤ s.wordCapacity tab →
    ∃ m, step s = .next { s with schedule := rest, store := m } ∧
      (∀ tab' b, ({ s with store := m } : State).word? tab' b =
        if tab' = tab ∧ a ≤ b ∧ b < a + vs.length then vs[b - a]? else s.word? tab' b) ∧
      (∀ tab' b, ({ s with store := m } : State).bit? tab' b = s.bit? tab' b))

/-! ### The read function codes -/

/-- FC1 and FC2 (spec/44_read_fc01_04.md R230, R231): the response is `[fc, ceil8(qty)]` and the packed
cells, with status RESP_OK; the store and everything else stay. The layout is the spec's decisions D16
and D21, the order of bits D19. -/
def Obligations.ReadBitsAnswerThePackedCells : Prop :=
  (∀ (s : State) (E : Engine) (env : Envelope) (start qty : Word), Serving s E env →
    1 ≤ qty.toNat → qty.toNat ≤ 2000 → start.toNat + qty.toNat ≤ s.preset.coils.length →
    exec (.readCoils start qty) s = .next (afterExec s E env
      (0x01 :: BitVec.ofNat 8 ((qty.toNat + 7) / 8) ::
        pack ((List.range qty.toNat).map fun i => (s.bit? .coils (start.toNat + i)).getD false))
      0x0001 s.store)) ∧
  (∀ (s : State) (E : Engine) (env : Envelope) (start qty : Word), Serving s E env →
    1 ≤ qty.toNat → qty.toNat ≤ 2000 → start.toNat + qty.toNat ≤ s.preset.di.length →
    exec (.readDiscreteInputs start qty) s = .next (afterExec s E env
      (0x02 :: BitVec.ofNat 8 ((qty.toNat + 7) / 8) ::
        pack ((List.range qty.toNat).map fun i => (s.bit? .di (start.toNat + i)).getD false))
      0x0001 s.store))

/-- FC3 and FC4 (spec/44_read_fc01_04.md R232, R233): the response is `[fc, 2*qty]` and the cells, high
byte first. The layout is the spec's decisions D16 and D21. -/
def Obligations.ReadWordsAnswerTheCellsHighByteFirst : Prop :=
  (∀ (s : State) (E : Engine) (env : Envelope) (start qty : Word), Serving s E env →
    1 ≤ qty.toNat → qty.toNat ≤ 125 → start.toNat + qty.toNat ≤ s.preset.hr.length →
    exec (.readHoldingRegisters start qty) s = .next (afterExec s E env
      (0x03 :: BitVec.ofNat 8 (2 * qty.toNat) ::
        (List.range qty.toNat).flatMap fun i => BE16 ((s.word? .hr (start.toNat + i)).getD 0))
      0x0001 s.store)) ∧
  (∀ (s : State) (E : Engine) (env : Envelope) (start qty : Word), Serving s E env →
    1 ≤ qty.toNat → qty.toNat ≤ 125 → start.toNat + qty.toNat ≤ s.preset.ir.length →
    exec (.readInputRegisters start qty) s = .next (afterExec s E env
      (0x04 :: BitVec.ofNat 8 (2 * qty.toNat) ::
        (List.range qty.toNat).flatMap fun i => BE16 ((s.word? .ir (start.toNat + i)).getD 0))
      0x0001 s.store))

/-! ### The write function codes -/

/-- FC5 (spec/45_write_single_fc05_06.md R250): the coil at `start` becomes 1 for 0xFF00 and 0 for 0x0000,
the request is echoed, and no other cell and nothing else changes. Layout, value codes and echo are
the spec's decisions D16, D20, D21. -/
def Obligations.WriteSingleCoilSetsOneCoilAndEchoes : Prop :=
  ∀ (s : State) (E : Engine) (env : Envelope) (start value : Word), Serving s E env →
    start.toNat < s.preset.coils.length →
    value = 0xFF00 ∨ value = 0x0000 →
    ∃ m, exec (.writeSingleCoil start value) s =
        .next (afterExec s E env (0x05 :: (BE16 start ++ BE16 value)) 0x0001 m) ∧
      (∀ tab a, ({ s with store := m } : State).bit? tab a =
        if tab = .coils ∧ a = start.toNat then some (decide (value = 0xFF00)) else s.bit? tab a) ∧
      (∀ tab a, ({ s with store := m } : State).word? tab a = s.word? tab a)

/-- FC6 (spec/45_write_single_fc05_06.md R251): the register at `start` takes `value`, the request is
echoed, and no other cell and nothing else changes. Layout and echo are D16 and D21. -/
def Obligations.WriteSingleRegisterSetsOneRegisterAndEchoes : Prop :=
  ∀ (s : State) (E : Engine) (env : Envelope) (start value : Word), Serving s E env →
    start.toNat < s.preset.hr.length →
    ∃ m, exec (.writeSingleRegister start value) s =
        .next (afterExec s E env (0x06 :: (BE16 start ++ BE16 value)) 0x0001 m) ∧
      (∀ tab a, ({ s with store := m } : State).word? tab a =
        if tab = .hr ∧ a = start.toNat then some value else s.word? tab a) ∧
      (∀ tab a, ({ s with store := m } : State).bit? tab a = s.bit? tab a)

/-- FC15 (spec/46_write_multiple_fc15_16.md R260, R263): the first `qty` bits of the data go to the coils
from `start`, the padding bits nowhere; `start` and `qty` are echoed. D16, D18, D19, D21. -/
def Obligations.WriteMultipleCoilsSetsTheRange : Prop :=
  ∀ (s : State) (E : Engine) (env : Envelope) (start qty : Word) (bc : Byte) (data : List Byte),
    Serving s E env →
    (Instr.writeMultipleCoils start qty bc data).WellFormed →
    1 ≤ qty.toNat → qty.toNat ≤ 1968 → start.toNat + qty.toNat ≤ s.preset.coils.length →
    ∃ m, exec (.writeMultipleCoils start qty bc data) s =
        .next (afterExec s E env (0x0F :: (BE16 start ++ BE16 qty)) 0x0001 m) ∧
      (∀ tab a, ({ s with store := m } : State).bit? tab a =
        if tab = .coils ∧ start.toNat ≤ a ∧ a < start.toNat + qty.toNat then
          some ((data.getD ((a - start.toNat) / 8) 0).getLsbD ((a - start.toNat) % 8))
        else s.bit? tab a) ∧
      (∀ tab a, ({ s with store := m } : State).word? tab a = s.word? tab a)

/-- FC16 (spec/46_write_multiple_fc15_16.md R261): the `qty` big-endian words of the data go to the
registers from `start`; `start` and `qty` are echoed. D16, D18, D21. -/
def Obligations.WriteMultipleRegistersSetsTheRange : Prop :=
  ∀ (s : State) (E : Engine) (env : Envelope) (start qty : Word) (bc : Byte) (data : List Byte),
    Serving s E env →
    (Instr.writeMultipleRegisters start qty bc data).WellFormed →
    1 ≤ qty.toNat → qty.toNat ≤ 123 → start.toNat + qty.toNat ≤ s.preset.hr.length →
    ∃ m, exec (.writeMultipleRegisters start qty bc data) s =
        .next (afterExec s E env (0x10 :: (BE16 start ++ BE16 qty)) 0x0001 m) ∧
      (∀ tab a, ({ s with store := m } : State).word? tab a =
        if tab = .hr ∧ start.toNat ≤ a ∧ a < start.toNat + qty.toNat then
          some (data.getD (2 * (a - start.toNat)) 0 ++ data.getD (2 * (a - start.toNat) + 1) 0)
        else s.word? tab a) ∧
      (∀ tab a, ({ s with store := m } : State).bit? tab a = s.bit? tab a)

/-- spec/20_memory.md R77 clause 2 and R75, the document's "never observes a half-written multi-register
value": whatever session reads the range next, an FC3 over it answers exactly the data bytes of the
FC16. -/
def Obligations.MultiRegisterWriteIsReadBackWhole : Prop :=
  ∀ (s : State) (E : Engine) (env : Envelope) (start qty : Word) (bc : Byte) (data : List Byte),
    Serving s E env →
    (Instr.writeMultipleRegisters start qty bc data).WellFormed →
    1 ≤ qty.toNat → qty.toNat ≤ 123 → start.toNat + qty.toNat ≤ s.preset.hr.length →
    ∃ t, exec (.writeMultipleRegisters start qty bc data) s = .next t ∧
      ∀ (u : State) (F : Engine) (env' : Envelope), u.store = t.store → u.preset = t.preset →
        Serving u F env' →
        exec (.readHoldingRegisters start qty) u =
          .next (afterExec u F env' (0x03 :: bc :: data) 0x0001 u.store)

/-! ### Exceptions -/

/-- spec/47_unsupported_fc.md R280 and R281: an unsupported code is answered `[fc OR 0x80, 0x01]` with
status RESP_EXC; the store is never touched. The numeric code is the spec's decision D15, the set of
codes D22 and D23. -/
def Obligations.UnsupportedCodesAreAnsweredIllegalFunction : Prop :=
  (∀ (s : State) (E : Engine) (env : Envelope) (fc : Byte) (rest : List Byte), Serving s E env →
    exec (.unsupportedBit7 fc rest) s =
      .next (afterExec s E env [fc ||| 0x80, 0x01] 0x0102 s.store)) ∧
  (∀ (s : State) (E : Engine) (env : Envelope) (fc : Byte) (rest : List Byte), Serving s E env →
    exec (.unsupportedDefault fc rest) s =
      .next (afterExec s E env [fc ||| 0x80, 0x01] 0x0102 s.store))

/-- spec/20_memory.md R72: a count of 0 or above the function's maximum is IllegalDataValue, whatever the
address (R73 comes after it). The write maxima are the spec's decision D18, the order D17. -/
def Obligations.CountOutOfRangeIsIllegalDataValue : Prop :=
  ∀ (s : State) (E : Engine) (env : Envelope) (start qty : Word) (bc : Byte) (data : List Byte),
    Serving s E env →
    (qty.toNat < 1 ∨ 2000 < qty.toNat →
      exec (.readCoils start qty) s = .next (afterExec s E env [0x81, 0x03] 0x0302 s.store) ∧
      exec (.readDiscreteInputs start qty) s =
        .next (afterExec s E env [0x82, 0x03] 0x0302 s.store)) ∧
    (qty.toNat < 1 ∨ 125 < qty.toNat →
      exec (.readHoldingRegisters start qty) s =
        .next (afterExec s E env [0x83, 0x03] 0x0302 s.store) ∧
      exec (.readInputRegisters start qty) s =
        .next (afterExec s E env [0x84, 0x03] 0x0302 s.store)) ∧
    (qty.toNat < 1 ∨ 1968 < qty.toNat →
      exec (.writeMultipleCoils start qty bc data) s =
        .next (afterExec s E env [0x8F, 0x03] 0x0302 s.store)) ∧
    (qty.toNat < 1 ∨ 123 < qty.toNat →
      exec (.writeMultipleRegisters start qty bc data) s =
        .next (afterExec s E env [0x90, 0x03] 0x0302 s.store))

/-- spec/20_memory.md R73: a range past the end of the table is IllegalDataAddress, in unbounded integers,
and nothing is written, not even the cells in range (spec/46_write_multiple_fc15_16.md R264). D17, D26. -/
def Obligations.RangePastTheTableIsIllegalDataAddress : Prop :=
  ∀ (s : State) (E : Engine) (env : Envelope) (start qty value : Word) (bc : Byte) (data : List Byte),
    Serving s E env →
    (1 ≤ qty.toNat → qty.toNat ≤ 2000 → s.preset.coils.length < start.toNat + qty.toNat →
      exec (.readCoils start qty) s = .next (afterExec s E env [0x81, 0x02] 0x0202 s.store)) ∧
    (1 ≤ qty.toNat → qty.toNat ≤ 2000 → s.preset.di.length < start.toNat + qty.toNat →
      exec (.readDiscreteInputs start qty) s =
        .next (afterExec s E env [0x82, 0x02] 0x0202 s.store)) ∧
    (1 ≤ qty.toNat → qty.toNat ≤ 125 → s.preset.hr.length < start.toNat + qty.toNat →
      exec (.readHoldingRegisters start qty) s =
        .next (afterExec s E env [0x83, 0x02] 0x0202 s.store)) ∧
    (1 ≤ qty.toNat → qty.toNat ≤ 125 → s.preset.ir.length < start.toNat + qty.toNat →
      exec (.readInputRegisters start qty) s =
        .next (afterExec s E env [0x84, 0x02] 0x0202 s.store)) ∧
    (s.preset.coils.length < start.toNat + 1 →
      exec (.writeSingleCoil start value) s =
        .next (afterExec s E env [0x85, 0x02] 0x0202 s.store)) ∧
    (s.preset.hr.length < start.toNat + 1 →
      exec (.writeSingleRegister start value) s =
        .next (afterExec s E env [0x86, 0x02] 0x0202 s.store)) ∧
    (1 ≤ qty.toNat → qty.toNat ≤ 1968 → s.preset.coils.length < start.toNat + qty.toNat →
      exec (.writeMultipleCoils start qty bc data) s =
        .next (afterExec s E env [0x8F, 0x02] 0x0202 s.store)) ∧
    (1 ≤ qty.toNat → qty.toNat ≤ 123 → s.preset.hr.length < start.toNat + qty.toNat →
      exec (.writeMultipleRegisters start qty bc data) s =
        .next (afterExec s E env [0x90, 0x02] 0x0202 s.store))

/-- spec/43_dispatcher.md R212: a codec failure is IllegalFunction or IllegalDataValue, it is answered
with the exception response, and no store operation happens after it. -/
def Obligations.CodecFailureIsAnsweredWithItsException : Prop :=
  ∀ (p : List Byte) (s : State) (E : Engine) (env : Envelope) (e : WireExc), p ≠ [] →
    decodeRequest p = .error e → Serving s E env →
    (e = .illegalFunction ∨ e = .illegalDataValue) ∧
    execPdu p s = .next (afterExec s E env [p.getD 0 0 ||| 0x80, excCode e]
      (excCode e ++ 0x02#8) s.store)

/-- spec/43_dispatcher.md R211: with the filter on, a frame for another unit gets IllegalFunction on TCP
and is dropped on RTU with status DROP_UNIT, before the PDU is looked at: whatever the instruction, and
for every PDU of at least one byte, those the codec would reject among them (spec/60_exceptions.md R309
rows 4 to 7), the response echoing the PDU's first byte (spec/40_pdu_codec.md R136). With the filter off
every unit id is accepted. The spec's decisions D5 and D6. -/
def Obligations.UnitFilterDecidesBeforeTheRequest : Prop :=
  (∀ (s : State) (E : Engine) (env : Envelope), s.engine? = some E →
    E.envelope = some env → s.cfg.unitFilterEn = true → env.uid ≠ s.cfg.unitId →
    (E.mode = .tcp →
      (∀ i : Instr, exec i s =
        .next (afterExec s E env [i.fc ||| 0x80, 0x01] 0x0102 s.store)) ∧
      (∀ p : List Byte, p ≠ [] → execPdu p s =
        .next (afterExec s E env [p.getD 0 0 ||| 0x80, 0x01] 0x0102 s.store))) ∧
    (E.mode = .rtu →
      (∀ i : Instr, exec i s = .next { s with
        engines := s.engines.set s.cur
          { E with buf := [], crc := 0xFFFF, phase := .rtuRecv, status := 0x0004 } }) ∧
      (∀ p : List Byte, p ≠ [] → execPdu p s = .next { s with
        engines := s.engines.set s.cur
          { E with buf := [], crc := 0xFFFF, phase := .rtuRecv, status := 0x0004 } }))) ∧
  (∀ (cfg : Cfg) (uid : Byte), cfg.unitFilterEn = false ∨ uid = cfg.unitId →
    unitAccepted cfg uid = true)

/-- spec/60_exceptions.md R305: whatever instance `k` makes of its next item, an error of framing, codec
or store among it, no other instance changes, and a cell changes only where a normal response (status
RESP_OK) is left waiting. -/
def Obligations.ErrorsTouchNeitherOtherSessionsNorTheStore : Prop :=
  ∀ (s t : State) (k : Nat), stepEvent (.consume k) s = .next t →
    (∀ j, j ≠ k → t.engines[j]? = s.engines[j]?) ∧
    (∀ F, t.engines[k]? = some F → (∀ p, F.txPending = some p → p.status ≠ 0x0001) →
      t.store = s.store)

/-- spec/43_dispatcher.md R210, "Raises nothing outward": on a complete frame every instruction takes a
next state, whatever its operands. -/
def Obligations.EveryInstructionCompletesOnACompleteFrame : Prop :=
  ∀ (i : Instr) (s : State) (E : Engine) (env : Envelope), s.engine? = some E →
    E.envelope = some env → ∃ t, exec i s = .next t ∧ t.cfg = s.cfg ∧ t.preset = s.preset ∧
      t.epoch = s.epoch ∧ t.schedule = s.schedule ∧ t.cur = s.cur ∧
      t.engines.length = s.engines.length ∧ t.maxSessions = s.maxSessions ∧ t.baud = s.baud

/-- The echo of spec/43_dispatcher.md R218 with the codes of spec/60_exceptions.md R302: the response EXEC
builds is framed with the request's `uid` and, on TCP, its `tid`; its PDU begins with the request's
function code and status RESP_OK, or it is that code OR 0x80 and one of the three exception codes. -/
def Obligations.ResponsesEchoTheirRequest : Prop :=
  ∀ (i : Instr) (s t : State) (E F : Engine) (env : Envelope) (p : TxPending),
    exec i s = .next t → s.engine? = some E → E.envelope = some env → E.txPending = none →
    t.engine? = some F → F.txPending = some p →
    ∃ r, p.frame = env.frame r ∧
      ((r.head? = some i.fc ∧ p.status = 0x0001) ∨
       ∃ code ∈ [0x01#8, 0x02#8, 0x03#8], r = [i.fc ||| 0x80, code] ∧ p.status = code ++ 0x02#8)

/-- The frames of spec/41_mbap_tcp.md R158 and spec/42_rtu_crc.md R196, byte by byte: where a response
frame carries the transaction id, the protocol id 0, the length, the unit id, the PDU and the CRC. For
every PDU whose length the 16-bit field can hold. -/
def Obligations.ResponseFrameLayout : Prop :=
  (∀ (tid : Word) (uid : Byte) (r : List Byte), r.length < 65535 →
    be16 (encodeTcp tid uid r) 0 = tid ∧ be16 (encodeTcp tid uid r) 2 = 0 ∧
    (be16 (encodeTcp tid uid r) 4).toNat = 1 + r.length ∧
    (encodeTcp tid uid r)[6]? = some uid ∧ (encodeTcp tid uid r).drop 7 = r) ∧
  (∀ (uid : Byte) (r : List Byte),
    (encodeRtu uid r).head? = some uid ∧ rtuPdu (encodeRtu uid r) = r ∧
    (encodeRtu uid r).length = r.length + 3 ∧ crcMatches (encodeRtu uid r) = true)

/-- spec/30_encoding.md R113 (an inference of the spec): a response frame has at most 259 bytes on TCP and
255 on RTU. -/
def Obligations.ResponseFramesFitTheirLimit : Prop :=
  ∀ (i : Instr) (s t : State) (E F : Engine) (p : TxPending),
    exec i s = .next t → s.engine? = some E → E.txPending = none →
    t.engine? = some F → F.txPending = some p →
    (E.mode = .tcp → p.frame.length ≤ 259) ∧ (E.mode = .rtu → p.frame.length ≤ 255)

/-- The `E.STATUS` encoding (spec/10_state.md R29): KIND in [3:0], zero in [7:4], EXC in [15:8]. The
register is the spec's decision D29. -/
def Obligations.StatusWordFields : Prop :=
  ∀ (k : Kind) (e : Byte),
    statusKind (statusWord k e) = kindCode k ∧ statusReserved (statusWord k e) = 0 ∧
    statusExc (statusWord k e) = e

/-! ### EMIT, Abort, the end of a session -/

/-- spec/43_dispatcher.md R216: EMIT, both outcomes; accepted sends the frame and writes its status, and
TxFail closes the session with 0x0009 and sends nothing. Nothing else changes. The choice between
them is the host's (D27). -/
def Obligations.EmitSendsTheFrameOrClosesTheSession : Prop :=
  ∀ (s : State) (k : Nat) (E : Engine) (p : TxPending) (rest : List Event),
    s.engines[k]? = some E → E.sess = .opened → E.txPending = some p →
    (s.schedule = .emit k true :: rest →
      step s = .next (withEngine { s with schedule := rest } k
        { E with output := E.output ++ [p.frame], status := p.status, txPending := none })) ∧
    (s.schedule = .emit k false :: rest →
      step s = .next (withEngine { s with schedule := rest } k
        { E with sess := .closed, status := 0x0009, txPending := none }))

/-- spec/43_dispatcher.md R217 and spec/10_state.md R21: no item is consumed while a response is pending,
by a CLOSED instance, or where none has come; that step of the schedule changes nothing. The spec's
decisions D31 and D32. -/
def Obligations.NoItemIsConsumedWhileAResponseIsPending : Prop :=
  ∀ (s : State) (k : Nat) (E : Engine) (rest : List Event), s.schedule = .consume k :: rest →
    s.engines[k]? = some E → E.txPending ≠ none ∨ E.sess = .closed ∨ E.input = [] →
    step s = .next { s with schedule := rest }

/-- spec/60_exceptions.md R313 and R314: `Abort` closes every OPEN instance with 0x0008 and drops its
buffer and its pending response; a CLOSED one and the store stay. The spec's decision D28; that the
epoch ends is R340 as the model reads it (log 17), and the CRC reload is R26 (log 13). -/
def Obligations.AbortClosesEverySessionAndKeepsTheStore : Prop :=
  ∀ (s : State) (rest : List Event), s.schedule = .abort :: rest →
    ∃ es, step s = .next { s with schedule := rest, epoch := .ended, engines := es } ∧
      es.length = s.engines.length ∧
      ∀ (k : Nat) (E : Engine), s.engines[k]? = some E →
        (E.sess = .opened → es[k]? = some { E with
          txPending := none, buf := [], crc := 0xFFFF, sess := .closed, status := 0x0008 }) ∧
        (E.sess = .closed → es[k]? = some E)

/-- spec/10_state.md R21: CLOSED is terminal. Whatever step is taken short of a new process start, a
CLOSED instance keeps every register and consumes no item (spec/41_mbap_tcp.md R156); its stream, outside
it, may only grow at its end (log 23). D32. -/
def Obligations.ClosedSessionsNeverChange : Prop :=
  ∀ (s t : State) (k : Nat) (E : Engine), step s = .next t →
    (∀ p, s.schedule.head? ≠ some (.restart p)) → s.engines[k]? = some E → E.sess = .closed →
    ∃ more, t.engines[k]? = some { E with input := E.input ++ more }

/-- spec/20_memory.md R64: from the wire only the dispatcher changes the store, that is, a step that is
neither the hook nor a new process start changes it only where an instance consumes an item; and
no such step writes DI or IR. -/
def Obligations.TheWireNeverWritesInputTables : Prop :=
  ∀ (s t : State) (e : Event) (rest : List Event), s.schedule = e :: rest → wireEvent e = true →
    step s = .next t →
    ((∀ k, e ≠ .consume k) → t.store = s.store) ∧
    t.store.di = s.store.di ∧ t.store.ir = s.store.ir ∧
    (∀ a, t.bit? .di a = s.bit? .di a) ∧ (∀ a, t.word? .ir a = s.word? .ir a)

/-! ### The transports -/

/-- spec/41_mbap_tcp.md R151, R152 and R157, one byte in TCP_HDR: before the seventh only the buffer
changes; at the seventh the header is latched, big-endian, and either accepted (`pid` = 0 and
2 <= `len` <= 254) or the session closes with 0x0006 and no response. Byte order, limits and the
moment are the spec's decisions D7, D8, D9; that a rejected header stays latched is log 22, the CRC
field of a TCP instance log 12. -/
def Obligations.TcpHeaderByteCollectsThenValidates : Prop :=
  ∀ (s : State) (k : Nat) (E : Engine) (b : Byte) (more : List Item) (rest : List Event),
    s.schedule = .consume k :: rest → Receiving s k E (.byte b) more → E.mode = .tcp →
    E.phase = .tcpHdr →
    (E.buf.length ≠ 6 →
      step s = .next (withEngine { s with schedule := rest } k
        { E with input := more, buf := E.buf ++ [b] })) ∧
    (∀ x0 x1 x2 x3 x4 x5, E.buf = [x0, x1, x2, x3, x4, x5] →
      (x2 ++ x3 = 0x0000#16 ∧ 2 ≤ (x4 ++ x5).toNat ∧ (x4 ++ x5).toNat ≤ 254 →
        step s = .next (withEngine { s with schedule := rest } k
          { E with
            input := more, buf := [], crc := 0xFFFF, phase := .tcpBody,
            hdr := some { tid := x0 ++ x1, pid := x2 ++ x3, len := x4 ++ x5, uid := b } })) ∧
      (¬(x2 ++ x3 = 0x0000#16 ∧ 2 ≤ (x4 ++ x5).toNat ∧ (x4 ++ x5).toNat ≤ 254) →
        step s = .next (withEngine { s with schedule := rest } k
          { E with
            input := more, buf := [], crc := 0xFFFF, sess := .closed, status := 0x0006,
            hdr := some { tid := x0 ++ x1, pid := x2 ++ x3, len := x4 ++ x5, uid := b } })))

/-- spec/41_mbap_tcp.md R154, R155 and R157: `Eos` at a frame boundary closes the session with 0x0007, and
inside a frame it is a FrameError, which closes it with 0x0006; no frame is emitted, the partial frame
is discarded and never dispatched, the store is unchanged. The codes are the spec's decision D29, the
CRC field of a TCP instance is log 12. -/
def Obligations.TcpEndOfStreamClosesTheSession : Prop :=
  ∀ (s : State) (k : Nat) (E : Engine) (more : List Item) (rest : List Event),
    s.schedule = .consume k :: rest → Receiving s k E .eos more → E.mode = .tcp →
    (E.phase = .tcpHdr → E.buf = [] →
      step s = .next (withEngine { s with schedule := rest } k
        { E with input := more, sess := .closed, status := 0x0007 })) ∧
    (E.phase = .tcpHdr ∧ E.buf ≠ [] ∨ E.phase = .tcpBody →
      step s = .next (withEngine { s with schedule := rest } k
        { E with input := more, buf := [], crc := 0xFFFF, sess := .closed, status := 0x0006 }))

/-- spec/42_rtu_crc.md R189 and R190, one byte on RTU: up to 256 bytes it joins the buffer and runs
through the CRC register; the 257th turns the frame into a FrameError; then bytes are ignored. The
limit is the spec's decision D11. -/
def Obligations.RtuByteIsBufferedUpToTheFrameLimit : Prop :=
  ∀ (s : State) (k : Nat) (E : Engine) (b : Byte) (more : List Item) (rest : List Event),
    s.schedule = .consume k :: rest → Receiving s k E (.byte b) more → E.mode = .rtu →
    (E.phase = .rtuRecv → E.buf.length < 256 →
      step s = .next (withEngine { s with schedule := rest } k
        { E with input := more, buf := E.buf ++ [b], crc := crcUpdate E.crc b })) ∧
    (E.phase = .rtuRecv → 256 ≤ E.buf.length →
      step s = .next (withEngine { s with schedule := rest } k
        { E with input := more, buf := [], crc := 0xFFFF, phase := .rtuDiscard })) ∧
    (E.phase = .rtuDiscard →
      step s = .next (withEngine { s with schedule := rest } k { E with input := more }))

/-- spec/42_rtu_crc.md R191 to R194, a gap that completes no frame: nothing buffered does nothing; 1 to 3
bytes, or the end of an oversized frame, is DROP_FRAME 0x0005; a CRC mismatch is DROP_CRC 0x0003. No
frame is emitted and the store is not touched. The size limits are the spec's decision D11. -/
def Obligations.RtuGapDropsBadFramesSilently : Prop :=
  ∀ (s : State) (k : Nat) (E : Engine) (more : List Item) (rest : List Event),
    s.schedule = .consume k :: rest → Receiving s k E .gap more → E.mode = .rtu →
    (E.phase = .rtuRecv → E.buf = [] →
      step s = .next (withEngine { s with schedule := rest } k { E with input := more })) ∧
    (E.phase = .rtuRecv → E.buf ≠ [] → E.buf.length < 4 →
      step s = .next (withEngine { s with schedule := rest } k
        { E with input := more, buf := [], crc := 0xFFFF, status := 0x0005 })) ∧
    (E.phase = .rtuDiscard →
      step s = .next (withEngine { s with schedule := rest } k
        { E with input := more, buf := [], crc := 0xFFFF, phase := .rtuRecv, status := 0x0005 })) ∧
    (E.phase = .rtuRecv → 4 ≤ E.buf.length → crc16 E.buf ≠ 0x0000 →
      step s = .next (withEngine { s with schedule := rest } k
        { E with input := more, buf := [], crc := 0xFFFF, status := 0x0003 }))

/-- spec/42_rtu_crc.md R195: `Eos` on RTU discards any partial frame without a CRC check and closes the
session with 0x0007, in either phase. The spec's decision D14; the CRC reload is R26 (log 13). -/
def Obligations.RtuEndOfStreamDiscardsAndCloses : Prop :=
  ∀ (s : State) (k : Nat) (E : Engine) (more : List Item) (rest : List Event),
    s.schedule = .consume k :: rest → Receiving s k E .eos more → E.mode = .rtu →
    E.phase = .rtuRecv ∨ E.phase = .rtuDiscard →
    step s = .next (withEngine { s with schedule := rest } k
      { E with input := more, buf := [], crc := 0xFFFF, sess := .closed, status := 0x0007 })

/-! ### The step -/

/-- A step runs the decoded request: where the next item of instance `k` completes a frame whose PDU
decodes to `i` (the last body byte, spec/41_mbap_tcp.md R153; the gap after a frame whose CRC passes,
spec/42_rtu_crc.md R194), the step is `exec i` of the state with the event taken from the schedule, the
item taken from the stream, the byte in the buffer, and `k` the current instance. That EXEC is part of
this step is log 1. -/
def Obligations.StepRunsTheDecodedRequest : Prop :=
  (∀ (s : State) (k : Nat) (E : Engine) (b : Byte) (more : List Item) (rest : List Event)
      (h : MbapHdr) (i : Instr), s.schedule = .consume k :: rest →
    Receiving s k E (.byte b) more → E.mode = .tcp → E.phase = .tcpBody → E.hdr = some h →
    E.buf.length + 1 = h.len.toNat - 1 → decode (E.buf ++ [b]) = .ok i →
    step s = exec i (withEngine { s with schedule := rest } k
      { E with input := more, buf := E.buf ++ [b] })) ∧
  (∀ (s : State) (k : Nat) (E : Engine) (more : List Item) (rest : List Event) (i : Instr),
    s.schedule = .consume k :: rest → Receiving s k E .gap more → E.mode = .rtu →
    E.phase = .rtuRecv → 4 ≤ E.buf.length → crc16 E.buf = 0x0000 →
    decode (rtuPdu E.buf) = .ok i →
    step s = exec i (withEngine { s with schedule := rest } k { E with input := more }))

/-- The same where the codec rejects the PDU: the step is the codec's exception (R212), and a body byte
that completes no PDU only joins the buffer (spec/41_mbap_tcp.md R153). That EXEC is part of the step of
the last item is log 1. -/
def Obligations.StepTakesTheCodecExceptionOrWaits : Prop :=
  (∀ (s : State) (k : Nat) (E : Engine) (b : Byte) (more : List Item) (rest : List Event)
      (h : MbapHdr), s.schedule = .consume k :: rest →
    Receiving s k E (.byte b) more → E.mode = .tcp → E.phase = .tcpBody → E.hdr = some h →
    (E.buf.length + 1 = h.len.toNat - 1 →
      step s = execPdu (E.buf ++ [b]) (withEngine { s with schedule := rest } k
        { E with input := more, buf := E.buf ++ [b] })) ∧
    (E.buf.length + 1 ≠ h.len.toNat - 1 →
      step s = .next (withEngine { s with schedule := rest } k
        { E with input := more, buf := E.buf ++ [b] }))) ∧
  (∀ (s : State) (k : Nat) (E : Engine) (more : List Item) (rest : List Event),
    s.schedule = .consume k :: rest → Receiving s k E .gap more → E.mode = .rtu →
    E.phase = .rtuRecv → 4 ≤ E.buf.length → crc16 E.buf = 0x0000 →
    step s = execPdu (rtuPdu E.buf) (withEngine { s with schedule := rest } k
      { E with input := more }))

/-- The model's loader (log 20): the step after `withFetchWord` is `exec` of the instruction the decoder
reads, on a state that serves it, with the store, the configuration and the schedule of `s`. -/
def Obligations.FetchWordRunsTheTableInstruction : Prop :=
  ∀ (s : State) (nbits w : Nat) (i : Instr), (tablePdu nbits w).length ≤ 253 →
    decodeTableWord nbits w = some i →
    ∃ u E env, step (s.withFetchWord nbits w) = exec i u ∧ Serving u E env ∧
      u.store = s.store ∧ u.preset = s.preset ∧ u.cfg = s.cfg ∧ u.schedule = s.schedule

/-- From the wire to EXEC on TCP (spec/30_encoding.md R102, R103, spec/41_mbap_tcp.md R151 to R153): an
instance at a frame boundary that consumes the bytes of one frame, header and PDU, ends in EXEC of
exactly that PDU, with the frame's `tid` and `uid` latched. That EXEC is part of the last byte's step is
log 1, the CRC field of a TCP instance log 12. -/
def Obligations.TcpFrameBytesLeadToItsRequest : Prop :=
  ∀ (s : State) (k : Nat) (E : Engine) (tid : Word) (uid : Byte) (pdu : List Byte)
      (more : List Item) (rest : List Event) (i : Instr),
    1 ≤ pdu.length → pdu.length ≤ 253 → decode pdu = .ok i → s.engines[k]? = some E →
    E.sess = .opened → E.txPending = none → E.mode = .tcp → E.phase = .tcpHdr → E.buf = [] →
    E.input = (encodeTcp tid uid pdu).map Item.byte ++ more →
    s.schedule = List.replicate (7 + pdu.length) (.consume k) ++ rest →
    Sys2Proof.core.run (7 + pdu.length) s = exec i (withEngine { s with schedule := rest } k
      { E with
        input := more, phase := .tcpBody, buf := pdu, crc := 0xFFFF,
        hdr := some { tid := tid, pid := 0, len := BitVec.ofNat 16 (1 + pdu.length), uid := uid } })

/-- From the wire to EXEC on RTU (spec/30_encoding.md R104, spec/42_rtu_crc.md R189, R194): an instance
with nothing buffered that consumes the bytes of one frame and the gap ends in EXEC of exactly its
PDU, the CRC register at 0. That EXEC is part of the gap's step is log 1. -/
def Obligations.RtuFrameBytesLeadToItsRequest : Prop :=
  ∀ (s : State) (k : Nat) (E : Engine) (uid : Byte) (pdu : List Byte)
      (more : List Item) (rest : List Event) (i : Instr),
    1 ≤ pdu.length → pdu.length ≤ 253 → decode pdu = .ok i → s.engines[k]? = some E →
    E.sess = .opened → E.txPending = none → E.mode = .rtu → E.phase = .rtuRecv → E.buf = [] →
    E.crc = 0xFFFF →
    E.input = (encodeRtu uid pdu).map Item.byte ++ .gap :: more →
    s.schedule = List.replicate (pdu.length + 4) (.consume k) ++ rest →
    Sys2Proof.core.run (pdu.length + 4) s = exec i (withEngine { s with schedule := rest } k
      { E with input := more, buf := encodeRtu uid pdu, crc := 0x0000 })

/-- spec/20_memory.md R83, "Sessions share nothing but the store": a session's own steps leave every
other instance as it is, and their effect on it and on the store depends on nothing of the others. -/
def Obligations.SessionsShareNothingButTheStore : Prop :=
  (∀ (s t : State) (k j : Nat) (e : Event), j ≠ k →
    (e = .consume k ∨ (∃ b, e = .emit k b) ∨ ∃ item, e = .feed k item) →
    stepEvent e s = .next t → t.engines[j]? = s.engines[j]?) ∧
  (∀ (k : Nat) (s₁ s₂ t₁ : State), s₁.cfg = s₂.cfg → s₁.preset = s₂.preset →
    s₁.store = s₂.store → s₁.engines[k]? = s₂.engines[k]? →
    stepEvent (.consume k) s₁ = .next t₁ →
    ∃ t₂, stepEvent (.consume k) s₂ = .next t₂ ∧ t₂.store = t₁.store ∧
      t₂.engines[k]? = t₁.engines[k]?)

/-! ### The invariant -/

/-- The state after reset satisfies the invariant, for all parameters of spec/00_scope.md R5 and R6. -/
def Obligations.ResetSatisfiesTheInvariant : Prop :=
  State.reset.Inv ∧ ∀ p : Params, p.preset.addressable → (State.boot p).Inv

/-- Every step keeps the invariant: the store's canonical form (log 8), one transport for all instances
(spec/10_state.md R22), legal phases (R23), buffer capacities (R24), the CRC register (R26), the pending
response (R28), the status encoding (R29), the single RTU instance and the session limit
(spec/60_exceptions.md R321, R322), no session open after the epoch ended. -/
def Obligations.StepKeepsTheInvariant : Prop :=
  ∀ s t : State, s.Inv → step s = .next t → t.Inv

/-- spec/10_state.md R36, "A model reading it faults": where a TCP instance reads `E.hdr`, in EXEC and at a
byte of TCP_BODY, the model stops with `hdrUnloaded` exactly where the latch holds no value; with any
header latched it goes on. R36 is the spec's decision D1. -/
def Obligations.HeaderReadFaultsExactlyBeforeItsFirstLoad : Prop :=
  (∀ (i : Instr) (s : State) (E : Engine), s.engine? = some E → E.mode = .tcp →
    (E.hdr = none → exec i s = .fault .hdrUnloaded) ∧
    (E.hdr ≠ none → ∃ t, exec i s = .next t)) ∧
  (∀ (s : State) (k : Nat) (E : Engine) (b : Byte) (more : List Item) (rest : List Event),
    s.schedule = .consume k :: rest → Receiving s k E (.byte b) more → E.mode = .tcp →
    E.phase = .tcpBody →
    (E.hdr = none → step s = .fault .hdrUnloaded) ∧
    (E.hdr ≠ none → ∃ t, step s = .next t))

/-- spec/10_state.md R36: no rule reads a state element that holds no value. From every state that meets
the invariant no step faults. -/
def Obligations.InvariantStatesNeverFault : Prop :=
  ∀ (s : State) (f : Fault), s.Inv → step s ≠ .fault f
end

