-- ==== Sys2Proof/Laws/State.lean ====
section
/-! SUPPORT. One lemma per field per update of State and Engine, each true by rfl, so that no later proof
unfolds a record update. -/

namespace Sys2Proof.Machine

variable (E : Engine) (s : State)

/-! ### Engine.clearBuf -/

@[simp] theorem clearBuf_sess : (E.clearBuf).sess = E.sess := rfl
@[simp] theorem clearBuf_mode : (E.clearBuf).mode = E.mode := rfl
@[simp] theorem clearBuf_phase : (E.clearBuf).phase = E.phase := rfl
@[simp] theorem clearBuf_buf : (E.clearBuf).buf = [] := rfl
@[simp] theorem clearBuf_hdr : (E.clearBuf).hdr = E.hdr := rfl
@[simp] theorem clearBuf_crc : (E.clearBuf).crc = crcInit := rfl
@[simp] theorem clearBuf_txPending : (E.clearBuf).txPending = E.txPending := rfl
@[simp] theorem clearBuf_status : (E.clearBuf).status = E.status := rfl
@[simp] theorem clearBuf_input : (E.clearBuf).input = E.input := rfl
@[simp] theorem clearBuf_output : (E.clearBuf).output = E.output := rfl

/-! ### Engine.nextFrame -/

@[simp] theorem nextFrame_sess : (E.nextFrame).sess = E.sess := rfl
@[simp] theorem nextFrame_mode : (E.nextFrame).mode = E.mode := rfl
@[simp] theorem nextFrame_phase : (E.nextFrame).phase = startPhase E.mode := rfl
@[simp] theorem nextFrame_buf : (E.nextFrame).buf = [] := rfl
@[simp] theorem nextFrame_hdr : (E.nextFrame).hdr = E.hdr := rfl
@[simp] theorem nextFrame_crc : (E.nextFrame).crc = crcInit := rfl
@[simp] theorem nextFrame_txPending : (E.nextFrame).txPending = E.txPending := rfl
@[simp] theorem nextFrame_status : (E.nextFrame).status = E.status := rfl
@[simp] theorem nextFrame_input : (E.nextFrame).input = E.input := rfl
@[simp] theorem nextFrame_output : (E.nextFrame).output = E.output := rfl

/-! ### Engine.drop -/

@[simp] theorem drop_sess (k : Kind) : (E.drop k).sess = E.sess := rfl
@[simp] theorem drop_mode (k : Kind) : (E.drop k).mode = E.mode := rfl
@[simp] theorem drop_phase (k : Kind) : (E.drop k).phase = startPhase E.mode := rfl
@[simp] theorem drop_buf (k : Kind) : (E.drop k).buf = [] := rfl
@[simp] theorem drop_hdr (k : Kind) : (E.drop k).hdr = E.hdr := rfl
@[simp] theorem drop_crc (k : Kind) : (E.drop k).crc = crcInit := rfl
@[simp] theorem drop_txPending (k : Kind) : (E.drop k).txPending = E.txPending := rfl
@[simp] theorem drop_status (k : Kind) : (E.drop k).status = plainStatus k := rfl
@[simp] theorem drop_input (k : Kind) : (E.drop k).input = E.input := rfl
@[simp] theorem drop_output (k : Kind) : (E.drop k).output = E.output := rfl

/-! ### Engine.close -/

@[simp] theorem close_sess (k : Kind) : (E.close k).sess = .closed := rfl
@[simp] theorem close_mode (k : Kind) : (E.close k).mode = E.mode := rfl
@[simp] theorem close_phase (k : Kind) : (E.close k).phase = E.phase := rfl
@[simp] theorem close_buf (k : Kind) : (E.close k).buf = E.buf := rfl
@[simp] theorem close_hdr (k : Kind) : (E.close k).hdr = E.hdr := rfl
@[simp] theorem close_crc (k : Kind) : (E.close k).crc = E.crc := rfl
@[simp] theorem close_txPending (k : Kind) : (E.close k).txPending = E.txPending := rfl
@[simp] theorem close_status (k : Kind) : (E.close k).status = plainStatus k := rfl
@[simp] theorem close_input (k : Kind) : (E.close k).input = E.input := rfl
@[simp] theorem close_output (k : Kind) : (E.close k).output = E.output := rfl

/-! ### Engine.respond -/

@[simp] theorem respond_sess (env : Envelope) (r : List Byte) (st : Word) : (E.respond env r st).sess = E.sess := rfl
@[simp] theorem respond_mode (env : Envelope) (r : List Byte) (st : Word) : (E.respond env r st).mode = E.mode := rfl
@[simp] theorem respond_phase (env : Envelope) (r : List Byte) (st : Word) : (E.respond env r st).phase = E.phase := rfl
@[simp] theorem respond_buf (env : Envelope) (r : List Byte) (st : Word) : (E.respond env r st).buf = E.buf := rfl
@[simp] theorem respond_hdr (env : Envelope) (r : List Byte) (st : Word) : (E.respond env r st).hdr = E.hdr := rfl
@[simp] theorem respond_crc (env : Envelope) (r : List Byte) (st : Word) : (E.respond env r st).crc = E.crc := rfl
@[simp] theorem respond_txPending (env : Envelope) (r : List Byte) (st : Word) : (E.respond env r st).txPending = some { frame := env.frame r, status := st } := rfl
@[simp] theorem respond_status (env : Envelope) (r : List Byte) (st : Word) : (E.respond env r st).status = E.status := rfl
@[simp] theorem respond_input (env : Envelope) (r : List Byte) (st : Word) : (E.respond env r st).input = E.input := rfl
@[simp] theorem respond_output (env : Envelope) (r : List Byte) (st : Word) : (E.respond env r st).output = E.output := rfl

/-! ### Engine.emitAccepted -/

@[simp] theorem emitAccepted_sess (p : TxPending) : (E.emitAccepted p).sess = E.sess := rfl
@[simp] theorem emitAccepted_mode (p : TxPending) : (E.emitAccepted p).mode = E.mode := rfl
@[simp] theorem emitAccepted_phase (p : TxPending) : (E.emitAccepted p).phase = E.phase := rfl
@[simp] theorem emitAccepted_buf (p : TxPending) : (E.emitAccepted p).buf = E.buf := rfl
@[simp] theorem emitAccepted_hdr (p : TxPending) : (E.emitAccepted p).hdr = E.hdr := rfl
@[simp] theorem emitAccepted_crc (p : TxPending) : (E.emitAccepted p).crc = E.crc := rfl
@[simp] theorem emitAccepted_txPending (p : TxPending) : (E.emitAccepted p).txPending = none := rfl
@[simp] theorem emitAccepted_status (p : TxPending) : (E.emitAccepted p).status = p.status := rfl
@[simp] theorem emitAccepted_input (p : TxPending) : (E.emitAccepted p).input = E.input := rfl
@[simp] theorem emitAccepted_output (p : TxPending) : (E.emitAccepted p).output = E.output ++ [p.frame] := rfl

/-! ### Engine.emitFailed -/

@[simp] theorem emitFailed_sess : (E.emitFailed).sess = .closed := rfl
@[simp] theorem emitFailed_mode : (E.emitFailed).mode = E.mode := rfl
@[simp] theorem emitFailed_phase : (E.emitFailed).phase = E.phase := rfl
@[simp] theorem emitFailed_buf : (E.emitFailed).buf = E.buf := rfl
@[simp] theorem emitFailed_hdr : (E.emitFailed).hdr = E.hdr := rfl
@[simp] theorem emitFailed_crc : (E.emitFailed).crc = E.crc := rfl
@[simp] theorem emitFailed_txPending : (E.emitFailed).txPending = none := rfl
@[simp] theorem emitFailed_status : (E.emitFailed).status = plainStatus .closedTxFail := rfl
@[simp] theorem emitFailed_input : (E.emitFailed).input = E.input := rfl
@[simp] theorem emitFailed_output : (E.emitFailed).output = E.output := rfl

/-! ### Engine.frameError -/

@[simp] theorem frameError_sess : (E.frameError).sess = .closed := rfl
@[simp] theorem frameError_mode : (E.frameError).mode = E.mode := rfl
@[simp] theorem frameError_phase : (E.frameError).phase = E.phase := rfl
@[simp] theorem frameError_buf : (E.frameError).buf = [] := rfl
@[simp] theorem frameError_hdr : (E.frameError).hdr = E.hdr := rfl
@[simp] theorem frameError_crc : (E.frameError).crc = crcInit := rfl
@[simp] theorem frameError_txPending : (E.frameError).txPending = E.txPending := rfl
@[simp] theorem frameError_status : (E.frameError).status = plainStatus .closedFrame := rfl
@[simp] theorem frameError_input : (E.frameError).input = E.input := rfl
@[simp] theorem frameError_output : (E.frameError).output = E.output := rfl

/-! ### Engine.rtuEos -/

@[simp] theorem rtuEos_sess : (E.rtuEos).sess = .closed := rfl
@[simp] theorem rtuEos_mode : (E.rtuEos).mode = E.mode := rfl
@[simp] theorem rtuEos_phase : (E.rtuEos).phase = E.phase := rfl
@[simp] theorem rtuEos_buf : (E.rtuEos).buf = [] := rfl
@[simp] theorem rtuEos_hdr : (E.rtuEos).hdr = E.hdr := rfl
@[simp] theorem rtuEos_crc : (E.rtuEos).crc = crcInit := rfl
@[simp] theorem rtuEos_txPending : (E.rtuEos).txPending = E.txPending := rfl
@[simp] theorem rtuEos_status : (E.rtuEos).status = plainStatus .closedEos := rfl
@[simp] theorem rtuEos_input : (E.rtuEos).input = E.input := rfl
@[simp] theorem rtuEos_output : (E.rtuEos).output = E.output := rfl

/-! ### State.setEngine -/

@[simp] theorem setEngine_cfg : (s.setEngine E).cfg = s.cfg := rfl
@[simp] theorem setEngine_preset : (s.setEngine E).preset = s.preset := rfl
@[simp] theorem setEngine_maxSessions : (s.setEngine E).maxSessions = s.maxSessions := rfl
@[simp] theorem setEngine_baud : (s.setEngine E).baud = s.baud := rfl
@[simp] theorem setEngine_store : (s.setEngine E).store = s.store := rfl
@[simp] theorem setEngine_engines : (s.setEngine E).engines = s.engines.set s.cur E := rfl
@[simp] theorem setEngine_epoch : (s.setEngine E).epoch = s.epoch := rfl
@[simp] theorem setEngine_cur : (s.setEngine E).cur = s.cur := rfl
@[simp] theorem setEngine_schedule : (s.setEngine E).schedule = s.schedule := rfl

/-! ### State.memWriteBits -/

@[simp] theorem memWriteBits_cfg (t : BitTable) (a : Nat) (vs : List Bool) : (s.memWriteBits t a vs).cfg = s.cfg := rfl
@[simp] theorem memWriteBits_preset (t : BitTable) (a : Nat) (vs : List Bool) : (s.memWriteBits t a vs).preset = s.preset := rfl
@[simp] theorem memWriteBits_maxSessions (t : BitTable) (a : Nat) (vs : List Bool) : (s.memWriteBits t a vs).maxSessions = s.maxSessions := rfl
@[simp] theorem memWriteBits_baud (t : BitTable) (a : Nat) (vs : List Bool) : (s.memWriteBits t a vs).baud = s.baud := rfl
@[simp] theorem memWriteBits_store (t : BitTable) (a : Nat) (vs : List Bool) : (s.memWriteBits t a vs).store = Memory.setBits s.store t
      (cellsWrite (Preset.bits s.preset t) (Memory.bits s.store t) a vs) := rfl
@[simp] theorem memWriteBits_engines (t : BitTable) (a : Nat) (vs : List Bool) : (s.memWriteBits t a vs).engines = s.engines := rfl
@[simp] theorem memWriteBits_epoch (t : BitTable) (a : Nat) (vs : List Bool) : (s.memWriteBits t a vs).epoch = s.epoch := rfl
@[simp] theorem memWriteBits_cur (t : BitTable) (a : Nat) (vs : List Bool) : (s.memWriteBits t a vs).cur = s.cur := rfl
@[simp] theorem memWriteBits_schedule (t : BitTable) (a : Nat) (vs : List Bool) : (s.memWriteBits t a vs).schedule = s.schedule := rfl

/-! ### State.memWriteWords -/

@[simp] theorem memWriteWords_cfg (t : WordTable) (a : Nat) (vs : List Word) : (s.memWriteWords t a vs).cfg = s.cfg := rfl
@[simp] theorem memWriteWords_preset (t : WordTable) (a : Nat) (vs : List Word) : (s.memWriteWords t a vs).preset = s.preset := rfl
@[simp] theorem memWriteWords_maxSessions (t : WordTable) (a : Nat) (vs : List Word) : (s.memWriteWords t a vs).maxSessions = s.maxSessions := rfl
@[simp] theorem memWriteWords_baud (t : WordTable) (a : Nat) (vs : List Word) : (s.memWriteWords t a vs).baud = s.baud := rfl
@[simp] theorem memWriteWords_store (t : WordTable) (a : Nat) (vs : List Word) : (s.memWriteWords t a vs).store = Memory.setWords s.store t
      (cellsWrite (Preset.words s.preset t) (Memory.words s.store t) a vs) := rfl
@[simp] theorem memWriteWords_engines (t : WordTable) (a : Nat) (vs : List Word) : (s.memWriteWords t a vs).engines = s.engines := rfl
@[simp] theorem memWriteWords_epoch (t : WordTable) (a : Nat) (vs : List Word) : (s.memWriteWords t a vs).epoch = s.epoch := rfl
@[simp] theorem memWriteWords_cur (t : WordTable) (a : Nat) (vs : List Word) : (s.memWriteWords t a vs).cur = s.cur := rfl
@[simp] theorem memWriteWords_schedule (t : WordTable) (a : Nat) (vs : List Word) : (s.memWriteWords t a vs).schedule = s.schedule := rfl

/-! ### abort -/

@[simp] theorem abort_cfg : (abort s).cfg = s.cfg := rfl
@[simp] theorem abort_preset : (abort s).preset = s.preset := rfl
@[simp] theorem abort_maxSessions : (abort s).maxSessions = s.maxSessions := rfl
@[simp] theorem abort_baud : (abort s).baud = s.baud := rfl
@[simp] theorem abort_store : (abort s).store = s.store := rfl
@[simp] theorem abort_engines : (abort s).engines = s.engines.map Engine.aborted := rfl
@[simp] theorem abort_epoch : (abort s).epoch = .ended := rfl
@[simp] theorem abort_cur : (abort s).cur = s.cur := rfl
@[simp] theorem abort_schedule : (abort s).schedule = s.schedule := rfl

/-! ### afterExec -/

@[simp] theorem afterExec_cfg (env : Envelope) (r : List Byte) (st : Word) (m : Memory) : (afterExec s E env r st m).cfg = s.cfg := rfl
@[simp] theorem afterExec_preset (env : Envelope) (r : List Byte) (st : Word) (m : Memory) : (afterExec s E env r st m).preset = s.preset := rfl
@[simp] theorem afterExec_maxSessions (env : Envelope) (r : List Byte) (st : Word) (m : Memory) : (afterExec s E env r st m).maxSessions = s.maxSessions := rfl
@[simp] theorem afterExec_baud (env : Envelope) (r : List Byte) (st : Word) (m : Memory) : (afterExec s E env r st m).baud = s.baud := rfl
@[simp] theorem afterExec_store (env : Envelope) (r : List Byte) (st : Word) (m : Memory) : (afterExec s E env r st m).store = m := rfl
@[simp] theorem afterExec_engines (env : Envelope) (r : List Byte) (st : Word) (m : Memory) : (afterExec s E env r st m).engines = s.engines.set s.cur
      { E with
        buf := [], crc := 0xFFFF, phase := startPhase E.mode,
        txPending := some { frame := env.frame r, status := st } } := rfl
@[simp] theorem afterExec_epoch (env : Envelope) (r : List Byte) (st : Word) (m : Memory) : (afterExec s E env r st m).epoch = s.epoch := rfl
@[simp] theorem afterExec_cur (env : Envelope) (r : List Byte) (st : Word) (m : Memory) : (afterExec s E env r st m).cur = s.cur := rfl
@[simp] theorem afterExec_schedule (env : Envelope) (r : List Byte) (st : Word) (m : Memory) : (afterExec s E env r st m).schedule = s.schedule := rfl

/-! ### withEngine -/

@[simp] theorem withEngine_cfg (k : Nat) : (withEngine s k E).cfg = s.cfg := rfl
@[simp] theorem withEngine_preset (k : Nat) : (withEngine s k E).preset = s.preset := rfl
@[simp] theorem withEngine_maxSessions (k : Nat) : (withEngine s k E).maxSessions = s.maxSessions := rfl
@[simp] theorem withEngine_baud (k : Nat) : (withEngine s k E).baud = s.baud := rfl
@[simp] theorem withEngine_store (k : Nat) : (withEngine s k E).store = s.store := rfl
@[simp] theorem withEngine_engines (k : Nat) : (withEngine s k E).engines = s.engines.set k E := rfl
@[simp] theorem withEngine_epoch (k : Nat) : (withEngine s k E).epoch = s.epoch := rfl
@[simp] theorem withEngine_cur (k : Nat) : (withEngine s k E).cur = k := rfl
@[simp] theorem withEngine_schedule (k : Nat) : (withEngine s k E).schedule = s.schedule := rfl

/-! ### Abort at one instance -/

theorem aborted_opened (h : E.sess = .opened) :
    E.aborted = { E.clearBuf with txPending := none }.close .closedAbort := by
  simp [Engine.aborted, h]

theorem aborted_closed (h : E.sess = .closed) : E.aborted = E := by simp [Engine.aborted, h]

@[simp] theorem aborted_sess : E.aborted.sess = .closed := by
  cases h : E.sess <;> simp [Engine.aborted, h]

/-! ### The tables of the store -/

@[simp] theorem bits_setBits (m : Memory) (t : BitTable) (cs : List (Nat × Bool)) :
    Memory.bits (Memory.setBits m t cs) t = cs := by cases t <;> rfl

@[simp] theorem words_setWords (m : Memory) (t : WordTable) (cs : List (Nat × Word)) :
    Memory.words (Memory.setWords m t cs) t = cs := by cases t <;> rfl

@[simp] theorem words_setBits (m : Memory) (t : BitTable) (cs : List (Nat × Bool)) (t' : WordTable) :
    Memory.words (Memory.setBits m t cs) t' = Memory.words m t' := by cases t <;> cases t' <;> rfl

@[simp] theorem bits_setWords (m : Memory) (t : WordTable) (cs : List (Nat × Word)) (t' : BitTable) :
    Memory.bits (Memory.setWords m t cs) t' = Memory.bits m t' := by cases t <;> cases t' <;> rfl

theorem bits_setBits_ne (m : Memory) {t t' : BitTable} (cs : List (Nat × Bool)) (h : t' ≠ t) :
    Memory.bits (Memory.setBits m t cs) t' = Memory.bits m t' := by
  cases t <;> cases t' <;> first | rfl | exact absurd rfl h

theorem words_setWords_ne (m : Memory) {t t' : WordTable} (cs : List (Nat × Word)) (h : t' ≠ t) :
    Memory.words (Memory.setWords m t cs) t' = Memory.words m t' := by
  cases t <;> cases t' <;> first | rfl | exact absurd rfl h

/-! ### Reading the engine list -/

@[simp] theorem setEngine_engine? (h : s.cur < s.engines.length) :
    (s.setEngine E).engine? = some E := by
  simp [State.engine?, h]

theorem setEngine_other {j : Nat} (h : j ≠ s.cur) : (s.setEngine E).engines[j]? = s.engines[j]? := by
  simp [List.getElem?_set_ne (Ne.symm h)]

theorem engine?_some_lt {E : Engine} (h : s.engine? = some E) : s.cur < s.engines.length := by
  simp only [State.engine?] at h
  exact (List.getElem?_eq_some_iff.mp h).1

end Sys2Proof.Machine
end

