-- ==== Sys2Proof/Laws/Memory.lean ====
section
/-! SUPPORT. The laws of the store: a read after a write, and the canonical form every operation keeps. -/

namespace Sys2Proof.Machine

variable {α : Type}

/-! ### One table -/

theorem cellLookup_erase (m : List (Nat × α)) (a b : Nat) :
    cellLookup (cellErase m a) b = if a = b then none else cellLookup m b := by
  induction m with
  | nil => simp [cellErase, cellLookup]
  | cons c rest ih =>
    obtain ⟨k, v⟩ := c
    simp only [cellErase, cellLookup]
    split
    · subst_vars
      rw [ih]
      split <;> rfl
    · rw [cellLookup, ih]
      split
      · rw [if_neg (by omega)]
      · rfl

theorem cellLookup_insert (m : List (Nat × α)) (a b : Nat) (v : α) :
    cellLookup (cellInsert m a v) b = if a = b then some v else cellLookup m b := by
  induction m with
  | nil => simp [cellInsert, cellLookup]
  | cons c rest ih =>
    obtain ⟨k, w⟩ := c
    simp only [cellInsert]
    split
    · simp [cellLookup]
    · split <;> simp only [cellLookup, ih] <;> repeat' split
      all_goals first | rfl | omega

theorem cellLookup_none_of_lt (m : List (Nat × α)) (a : Nat) (h : ∀ c ∈ m, a < c.1) :
    cellLookup m a = none := by
  induction m with
  | nil => rfl
  | cons c rest ih =>
    have hc := h c (by simp)
    rw [cellLookup, if_neg (by omega), ih fun c hc => h c (by simp [hc])]

theorem cellLookup_mem (m : List (Nat × α)) {a : Nat} {v : α} (h : cellLookup m a = some v) :
    (a, v) ∈ m := by
  induction m with
  | nil => simp [cellLookup] at h
  | cons c rest ih =>
    obtain ⟨k, w⟩ := c
    simp only [cellLookup] at h
    split at h
    · simp_all
    · exact List.mem_cons_of_mem _ (ih h)

theorem cellLookup_of_mem (m : List (Nat × α)) {a : Nat} {v : α}
    (hs : m.Pairwise fun x y => x.1 < y.1) (h : (a, v) ∈ m) : cellLookup m a = some v := by
  induction m with
  | nil => simp at h
  | cons c rest ih =>
    obtain ⟨k, w⟩ := c
    obtain ⟨hk, hr⟩ := List.pairwise_cons.mp hs
    rcases List.mem_cons.mp h with h | h
    · simp_all [cellLookup]
    · have := hk _ h
      rw [cellLookup, if_neg (by simp at this; omega), ih hr h]

theorem mem_cellErase {m : List (Nat × α)} {a : Nat} {c : Nat × α} (h : c ∈ cellErase m a) :
    c ∈ m ∧ c.1 ≠ a := by
  induction m with
  | nil => simp [cellErase] at h
  | cons d rest ih =>
    obtain ⟨k, w⟩ := d
    simp only [cellErase] at h
    split at h
    · exact ⟨List.mem_cons_of_mem _ (ih h).1, (ih h).2⟩
    · rcases List.mem_cons.mp h with rfl | h
      · exact ⟨by simp, by simpa using ‹_›⟩
      · exact ⟨List.mem_cons_of_mem _ (ih h).1, (ih h).2⟩

theorem mem_cellInsert {m : List (Nat × α)} {a : Nat} {v : α} {c : Nat × α}
    (h : c ∈ cellInsert m a v) : c = (a, v) ∨ c ∈ m := by
  induction m with
  | nil => simp_all [cellInsert]
  | cons d rest ih =>
    obtain ⟨k, w⟩ := d
    simp only [cellInsert] at h
    split at h
    · simpa using h
    · split at h
      · rcases List.mem_cons.mp h with h | h
        · exact .inl h
        · exact .inr (List.mem_cons_of_mem _ h)
      · rcases List.mem_cons.mp h with h | h
        · exact .inr (by simp [h])
        · exact (ih h).imp id (List.mem_cons_of_mem _)

theorem cellErase_rising {m : List (Nat × α)} (a : Nat) (hs : m.Pairwise fun x y => x.1 < y.1) :
    (cellErase m a).Pairwise fun x y => x.1 < y.1 := by
  induction m with
  | nil => exact List.Pairwise.nil
  | cons d rest ih =>
    obtain ⟨hk, hr⟩ := List.pairwise_cons.mp hs
    simp only [cellErase]
    split
    · exact ih hr
    · exact List.pairwise_cons.mpr ⟨fun c hc => hk c (mem_cellErase hc).1, ih hr⟩

theorem cellInsert_rising {m : List (Nat × α)} (a : Nat) (v : α)
    (hs : m.Pairwise fun x y => x.1 < y.1) : (cellInsert m a v).Pairwise fun x y => x.1 < y.1 := by
  induction m with
  | nil => simp [cellInsert]
  | cons d rest ih =>
    obtain ⟨k, w⟩ := d
    obtain ⟨hk, hr⟩ := List.pairwise_cons.mp hs
    simp only [cellInsert]
    split
    · refine List.pairwise_cons.mpr ⟨fun c hc => ?_, hs⟩
      rcases List.mem_cons.mp hc with rfl | hc
      · assumption
      · have := hk c hc
        simp only at this ⊢
        omega
    · split
      · subst_vars
        exact List.pairwise_cons.mpr ⟨hk, hr⟩
      · refine List.pairwise_cons.mpr ⟨fun c hc => ?_, ih hr⟩
        rcases mem_cellInsert hc with rfl | hc
        · simp only
          omega
        · exact hk c hc

variable [DecidableEq α]

/-- A write reads back at its address and leaves every other address alone. -/
theorem cellRead_cellWrite (preset : List α) (m : List (Nat × α)) (a b : Nat) (v : α)
    (ha : a < preset.length) :
    cellRead preset (cellWrite preset m a v) b = if a = b then some v else cellRead preset m b := by
  unfold cellRead cellWrite
  split
  · rename_i hv
    rw [cellLookup_erase]
    split
    · subst_vars
      simp [hv]
    · rfl
  · rw [cellLookup_insert]
    split
    · subst_vars
      simp [List.getElem?_eq_getElem ha]
    · rfl

/-- A write keeps the canonical form. -/
theorem cellWrite_wf {preset : List α} {m : List (Nat × α)} {a : Nat} (v : α)
    (h : cellsWf preset m) (ha : a < preset.length) : cellsWf preset (cellWrite preset m a v) := by
  unfold cellWrite
  split
  · exact ⟨cellErase_rising a h.1, fun c hc => h.2 c (mem_cellErase hc).1⟩
  · refine ⟨cellInsert_rising a v h.1, fun c hc => ?_⟩
    rcases mem_cellInsert hc with rfl | hc
    · exact ⟨ha, by assumption⟩
    · exact h.2 c hc

theorem cellsWrite_wf {preset : List α} (vs : List α) {m : List (Nat × α)} {a : Nat}
    (h : cellsWf preset m) (ha : a + vs.length ≤ preset.length) :
    cellsWf preset (cellsWrite preset m a vs) := by
  induction vs generalizing m a with
  | nil => exact h
  | cons v vs ih =>
    simp only [List.length_cons] at ha
    exact ih (cellWrite_wf v h (by omega)) (by omega)

/-- What a write of a list leaves at every address: the new cell where it is a target, else the old
one (spec/20_memory.md R71). -/
theorem cellRead_cellsWrite (preset : List α) (vs : List α) (m : List (Nat × α)) (a b : Nat)
    (ha : a + vs.length ≤ preset.length) :
    cellRead preset (cellsWrite preset m a vs) b =
      if a ≤ b ∧ b < a + vs.length then vs[b - a]? else cellRead preset m b := by
  induction vs generalizing m a with
  | nil => simp [cellsWrite]
  | cons v vs ih =>
    simp only [List.length_cons] at ha
    rw [cellsWrite, ih _ _ (by omega), cellRead_cellWrite _ _ _ _ _ (by omega)]
    by_cases hb : a = b
    · subst hb
      rw [if_neg (by omega), if_pos rfl, if_pos (by simp)]
      simp
    · rw [if_neg hb]
      by_cases hr : a + 1 ≤ b ∧ b < a + 1 + vs.length
      · rw [if_pos hr, if_pos (by simp only [List.length_cons]; omega),
          show b - a = b - (a + 1) + 1 by omega, List.getElem?_cons_succ]
      · rw [if_neg hr, if_neg (by simp only [List.length_cons]; omega)]

/-! ### The whole store -/

theorem Memory_empty_wf (p : Preset) : Memory.wf p Memory.empty := by
  simp [Memory.wf, cellsWf, Memory.empty]

theorem cellsWf_bits {p : Preset} {m : Memory} (h : Memory.wf p m) (t : BitTable) :
    cellsWf (Preset.bits p t) (Memory.bits m t) := by
  cases t
  · exact h.1
  · exact h.2.1

theorem cellsWf_words {p : Preset} {m : Memory} (h : Memory.wf p m) (t : WordTable) :
    cellsWf (Preset.words p t) (Memory.words m t) := by
  cases t
  · exact h.2.2.1
  · exact h.2.2.2

/-- Every `MemWrite` within its table keeps the canonical form. -/
theorem memWriteBits_wf {s : State} (t : BitTable) (a : Nat) (vs : List Bool)
    (h : Memory.wf s.preset s.store) (ha : a + vs.length ≤ s.bitCapacity t) :
    Memory.wf s.preset (s.memWriteBits t a vs).store := by
  have hw := cellsWrite_wf vs (cellsWf_bits h t) ha
  cases t
  · exact ⟨hw, h.2⟩
  · exact ⟨h.1, hw, h.2.2⟩

theorem memWriteWords_wf {s : State} (t : WordTable) (a : Nat) (vs : List Word)
    (h : Memory.wf s.preset s.store) (ha : a + vs.length ≤ s.wordCapacity t) :
    Memory.wf s.preset (s.memWriteWords t a vs).store := by
  have hw := cellsWrite_wf vs (cellsWf_words h t) ha
  cases t
  · exact ⟨h.1, h.2.1, hw, h.2.2.2⟩
  · exact ⟨h.1, h.2.1, h.2.2.1, hw⟩

/-! ### Cells of a state -/

@[simp] theorem setEngine_bit? (s : State) (E : Engine) (t : BitTable) (a : Nat) :
    (s.setEngine E).bit? t a = s.bit? t a := rfl

@[simp] theorem setEngine_word? (s : State) (E : Engine) (t : WordTable) (a : Nat) :
    (s.setEngine E).word? t a = s.word? t a := rfl

@[simp] theorem memWriteBits_word? (s : State) (t : BitTable) (a : Nat) (vs : List Bool)
    (t' : WordTable) (b : Nat) : (s.memWriteBits t a vs).word? t' b = s.word? t' b := by
  simp [State.word?]

@[simp] theorem memWriteWords_bit? (s : State) (t : WordTable) (a : Nat) (vs : List Word)
    (t' : BitTable) (b : Nat) : (s.memWriteWords t a vs).bit? t' b = s.bit? t' b := by
  simp [State.bit?]

/-- A valid address always reads a cell (spec/20_memory.md R62, R66: no cell is without a value). -/
theorem bit?_isSome (s : State) (t : BitTable) (a : Nat) :
    (s.bit? t a).isSome ↔ a < s.bitCapacity t := by
  simp [State.bit?, cellRead, State.bitCapacity]

theorem word?_isSome (s : State) (t : WordTable) (a : Nat) :
    (s.word? t a).isSome ↔ a < s.wordCapacity t := by
  simp [State.word?, cellRead, State.wordCapacity]

@[simp] theorem memReadBits_length (s : State) (t : BitTable) (a n : Nat) :
    (s.memReadBits t a n).length = n := by simp [State.memReadBits]

@[simp] theorem memReadWords_length (s : State) (t : WordTable) (a n : Nat) :
    (s.memReadWords t a n).length = n := by simp [State.memReadWords]

end Sys2Proof.Machine
end

