-- ==== Sys2Proof/Laws/Ops.lean ====
section
/-! SUPPORT. What each shared operation can do, said once: the checks of a store operation, the request
step EXEC, and every instruction as an instance of it. -/

namespace Sys2Proof.Machine

/-! ### The checks of a store operation (spec/20_memory.md R72, R73) -/

theorem storeCheck_ok {qmax count start capacity : Nat} :
    storeCheck qmax count start capacity = .ok () ↔
      1 ≤ count ∧ count ≤ qmax ∧ start + count ≤ capacity := by
  unfold storeCheck
  split
  · simp; omega
  · split <;> simp <;> omega

theorem storeCheck_count {qmax count start capacity : Nat} (h : count < 1 ∨ qmax < count) :
    storeCheck qmax count start capacity = .error .illegalDataValue := by
  rw [storeCheck, if_pos h]

theorem storeCheck_bounds {qmax count start capacity : Nat} (h : 1 ≤ count ∧ count ≤ qmax)
    (hb : capacity < start + count) :
    storeCheck qmax count start capacity = .error .illegalDataAddress := by
  rw [storeCheck, if_neg (by omega), if_pos hb]

theorem checked_ok {qmax count start capacity : Nat} {done res : State × List Byte} :
    checked qmax count start capacity done = .ok res ↔
      (1 ≤ count ∧ count ≤ qmax ∧ start + count ≤ capacity) ∧ res = done := by
  unfold checked
  rcases h : storeCheck qmax count start capacity with e | u
  · rw [← storeCheck_ok, h]
    simp
  · rw [← storeCheck_ok, h]
    simp [eq_comm]

theorem checked_error {qmax count start capacity : Nat} {done : State × List Byte} {e : WireExc} :
    checked qmax count start capacity done = .error e ↔
      storeCheck qmax count start capacity = .error e := by
  unfold checked
  rcases h : storeCheck qmax count start capacity with e | u <;> simp

/-! ### EXEC (spec/43_dispatcher.md R210) -/

/-- Everything EXEC does when it takes a step: a response, an exception of the request, or, where the
unit filter rejects the frame, an exception on TCP and a drop on RTU. -/
theorem request_next {fc : Byte} {perform : State → Except WireExc (State × List Byte)}
    {s t : State} (h : request fc perform s = .next t) :
    ∃ E env, s.engine? = some E ∧ E.envelope = some env ∧
      ((unitAccepted s.cfg env.uid = true ∧ ∃ s' r, perform s = .ok (s', r) ∧
          t = s'.setEngine (E.nextFrame.respond env r (plainStatus .respOk))) ∨
       (unitAccepted s.cfg env.uid = true ∧ ∃ e, perform s = .error e ∧
          t = takeException s E.nextFrame env fc e) ∨
       (unitAccepted s.cfg env.uid = false ∧ E.mode = .tcp ∧
          t = takeException s E.nextFrame env fc .illegalFunction) ∨
       (unitAccepted s.cfg env.uid = false ∧ E.mode = .rtu ∧
          t = s.setEngine (E.drop .dropUnit))) := by
  unfold request at h
  split at h
  · simp at h
  · rename_i E hE
    split at h
    · simp at h
    · rename_i env henv
      refine ⟨E, env, hE, henv, ?_⟩
      split at h
      · rename_i hu
        split at h <;> simp only [Host.Outcome.next.injEq] at h <;> subst h
        · exact .inl ⟨hu, _, _, by assumption, rfl⟩
        · exact .inr (.inl ⟨hu, _, by assumption, rfl⟩)
      · rename_i hu
        have hu : unitAccepted s.cfg env.uid = false := by simpa using hu
        split at h <;> simp only [Host.Outcome.next.injEq] at h <;> subst h
        · exact .inr (.inr (.inl ⟨hu, by assumption, rfl⟩))
        · exact .inr (.inr (.inr ⟨hu, by assumption, rfl⟩))

/-- EXEC never refuses. -/
theorem request_not_refused {fc : Byte} {perform : State → Except WireExc (State × List Byte)}
    {s : State} {r : Refusal} : request fc perform s ≠ .refused r := by
  intro h
  unfold request at h
  repeat' split at h
  all_goals simp at h

/-- EXEC faults only where there is no instance or no complete frame. -/
theorem request_fault {fc : Byte} {perform : State → Except WireExc (State × List Byte)}
    {s : State} {f : Fault} (h : request fc perform s = .fault f) :
    s.engine? = none ∨ ∃ E, s.engine? = some E ∧ E.envelope = none := by
  unfold request at h
  split at h
  · exact .inl (by assumption)
  · rename_i E hE
    split at h
    · exact .inr ⟨E, hE, by assumption⟩
    · repeat' split at h
      all_goals simp at h

theorem request_ok {fc : Byte} {perform : State → Except WireExc (State × List Byte)}
    {s s' : State} {E : Engine} {env : Envelope} {r : List Byte} (h : Serving s E env)
    (hp : perform s = .ok (s', r)) :
    request fc perform s =
      .next (s'.setEngine (E.nextFrame.respond env r (plainStatus .respOk))) := by
  obtain ⟨hE, henv, hu⟩ := h
  simp only [request, hE, henv, hu, hp, if_true]

theorem request_error {fc : Byte} {perform : State → Except WireExc (State × List Byte)}
    {s : State} {E : Engine} {env : Envelope} {e : WireExc} (h : Serving s E env)
    (hp : perform s = .error e) :
    request fc perform s = .next (takeException s E.nextFrame env fc e) := by
  obtain ⟨hE, henv, hu⟩ := h
  simp only [request, hE, henv, hu, hp, if_true]

theorem request_filtered_tcp {fc : Byte} {perform : State → Except WireExc (State × List Byte)}
    {s : State} {E : Engine} {env : Envelope} (hE : s.engine? = some E) (henv : E.envelope = some env)
    (hu : unitAccepted s.cfg env.uid = false) (hm : E.mode = .tcp) :
    request fc perform s = .next (takeException s E.nextFrame env fc .illegalFunction) := by
  simp [request, hE, henv, hu, hm]

theorem request_filtered_rtu {fc : Byte} {perform : State → Except WireExc (State × List Byte)}
    {s : State} {E : Engine} {env : Envelope} (hE : s.engine? = some E) (henv : E.envelope = some env)
    (hu : unitAccepted s.cfg env.uid = false) (hm : E.mode = .rtu) :
    request fc perform s = .next (s.setEngine (E.drop .dropUnit)) := by
  simp [request, hE, henv, hu, hm]

/-! ### Every instruction is an instance of EXEC -/

/-- What comes after the unit filter, by instruction (spec/43_dispatcher.md R213). -/
def performOf : Instr → State → Except WireExc (State × List Byte)
  | .readCoils start qty => performReadBits 0x01 .coils start qty
  | .readDiscreteInputs start qty => performReadBits 0x02 .di start qty
  | .readHoldingRegisters start qty => performReadWords 0x03 .hr start qty
  | .readInputRegisters start qty => performReadWords 0x04 .ir start qty
  | .writeSingleCoil start value =>
    performWriteBits 0x05 Config.qmaxSingle start value [value == 0xFF00]
  | .writeSingleRegister start value =>
    performWriteWords 0x06 Config.qmaxSingle start value [value]
  | .writeMultipleCoils start qty _ data =>
    performWriteBits 0x0F Config.qmaxWriteBits start qty (unpackBits data qty.toNat)
  | .writeMultipleRegisters start qty _ data =>
    performWriteWords 0x10 Config.qmaxWriteWords start qty (unpackWords data qty.toNat)
  | .unsupportedBit7 _ _ => performRaise .illegalFunction
  | .unsupportedDefault _ _ => performRaise .illegalFunction

theorem exec_eq_request (i : Instr) (s : State) : exec i s = request i.fc (performOf i) s := by
  cases i <;> rfl

/-- What a request that succeeds does to the store, by instruction: nothing, a write to COILS, or a
write to HR, within the table. -/
theorem performOf_ok {i : Instr} {s s' : State} {r : List Byte} (h : performOf i s = .ok (s', r)) :
    s' = s ∨
      (∃ a vs, a + vs.length ≤ s.bitCapacity .coils ∧ s' = s.memWriteBits .coils a vs) ∨
      (∃ a vs, a + vs.length ≤ s.wordCapacity .hr ∧ s' = s.memWriteWords .hr a vs) := by
  cases i <;>
    simp only [performOf, performReadBits, performReadWords, performWriteBits, performWriteWords,
      performRaise, checked_ok, Prod.mk.injEq, reduceCtorEq] at h
  case readCoils => exact .inl h.2.1
  case readDiscreteInputs => exact .inl h.2.1
  case readHoldingRegisters => exact .inl h.2.1
  case readInputRegisters => exact .inl h.2.1
  case writeSingleCoil => exact .inr (.inl ⟨_, _, h.1.2.2, h.2.1⟩)
  case writeSingleRegister => exact .inr (.inr ⟨_, _, h.1.2.2, h.2.1⟩)
  case writeMultipleCoils => exact .inr (.inl ⟨_, _, h.1.2.2, h.2.1⟩)
  case writeMultipleRegisters => exact .inr (.inr ⟨_, _, h.1.2.2, h.2.1⟩)

/-! ### Operands -/

@[simp] theorem BE16_length (v : Word) : (BE16 v).length = 2 := rfl

@[simp] theorem LE16_length (v : Word) : (LE16 v).length = 2 := rfl

@[simp] theorem ofBE16_bytes (v : Word) : ofBE16 (hiByte v) (loByte v) = v := by
  apply BitVec.eq_of_getLsbD_eq
  intro i hi
  simp only [ofBE16, hiByte, loByte, BitVec.getLsbD_append, BitVec.getLsbD_extractLsb']
  split
  · simp [*]
  · rw [show 8 + (i - 8) = i by omega]
    simp
    omega

@[simp] theorem hiByte_ofBE16 (a b : Byte) : hiByte (ofBE16 a b) = a := by
  apply BitVec.eq_of_getLsbD_eq
  intro i hi
  simp only [ofBE16, hiByte, BitVec.getLsbD_append, BitVec.getLsbD_extractLsb']
  simp [hi]

@[simp] theorem loByte_ofBE16 (a b : Byte) : loByte (ofBE16 a b) = b := by
  apply BitVec.eq_of_getLsbD_eq
  intro i hi
  simp only [ofBE16, loByte, BitVec.getLsbD_append, BitVec.getLsbD_extractLsb']
  simp [hi]

@[simp] theorem pack_length (bits : List Bool) : (pack bits).length = ceil8 bits.length := by
  simp [pack]

@[simp] theorem unpackBits_length (data : List Byte) (n : Nat) : (unpackBits data n).length = n := by
  simp [unpackBits]

@[simp] theorem unpackWords_length (data : List Byte) (n : Nat) : (unpackWords data n).length = n := by
  simp [unpackWords]

@[simp] theorem wordBytes_length (ws : List Word) : (wordBytes ws).length = 2 * ws.length := by
  induction ws with
  | nil => rfl
  | cons w ws ih =>
    simp only [wordBytes, List.flatMap_cons, List.length_append, BE16_length, List.length_cons] at ih ⊢
    omega

theorem getLsbD_packByte (bits : List Bool) (j : Nat) (h : j < 8) :
    (packByte bits).getLsbD j = bits.getD j false := by
  simp [packByte, h]

end Sys2Proof.Machine
end

