-- ==== Sys2Proof/Laws/PerInstr.lean ====
section
/-! SUPPORT. A statement about every instruction as syntax: the encoding of a well-formed request has the
length its format asks for (spec/30_encoding.md R92), by instruction. -/

namespace Sys2Proof.Laws.EncodedLength

/-- The PDU begins with the function code and, where the code is supported, has its format's length. -/
def Statement (i : Instr) : Prop :=
  i.WellFormed → (encode i).head? = some i.fc ∧
    (supportedFcs.contains i.fc = true → (encode i).length = formatLength (encode i))

theorem readCoils (start qty : Word) : Statement (.readCoils start qty) :=
  fun _ => ⟨rfl, fun _ => rfl⟩

theorem readDiscreteInputs (start qty : Word) : Statement (.readDiscreteInputs start qty) :=
  fun _ => ⟨rfl, fun _ => rfl⟩

theorem readHoldingRegisters (start qty : Word) : Statement (.readHoldingRegisters start qty) :=
  fun _ => ⟨rfl, fun _ => rfl⟩

theorem readInputRegisters (start qty : Word) : Statement (.readInputRegisters start qty) :=
  fun _ => ⟨rfl, fun _ => rfl⟩

theorem writeSingleCoil (start value : Word) : Statement (.writeSingleCoil start value) :=
  fun _ => ⟨rfl, fun _ => rfl⟩

theorem writeSingleRegister (start value : Word) : Statement (.writeSingleRegister start value) :=
  fun _ => ⟨rfl, fun _ => rfl⟩

theorem writeMultipleCoils (start qty : Word) (bc : Byte) (data : List Byte) :
    Statement (.writeMultipleCoils start qty bc data) := by
  intro h
  simp only [Instr.WellFormed, Instr.checks, Bool.and_eq_true, beq_iff_eq] at h
  refine ⟨rfl, fun _ => ?_⟩
  simp [encode, Instr.fields, Instr.fc, formatLength, Machine.BE16, h.1]
  omega

theorem writeMultipleRegisters (start qty : Word) (bc : Byte) (data : List Byte) :
    Statement (.writeMultipleRegisters start qty bc data) := by
  intro h
  simp only [Instr.WellFormed, Instr.checks, Bool.and_eq_true, beq_iff_eq] at h
  refine ⟨rfl, fun _ => ?_⟩
  simp [encode, Instr.fields, Instr.fc, formatLength, Machine.BE16, h.1]
  omega

theorem unsupportedBit7 (fc : Byte) (rest : List Byte) : Statement (.unsupportedBit7 fc rest) := by
  intro h
  refine ⟨rfl, fun hs => ?_⟩
  simp only [Instr.WellFormed, Instr.checks, Instr.fc] at h hs
  revert h hs
  have : ∀ b : Byte, b.msb = true → supportedFcs.contains b = true → False := by decide
  exact fun h hs => (this fc h hs).elim

theorem unsupportedDefault (fc : Byte) (rest : List Byte) :
    Statement (.unsupportedDefault fc rest) := by
  intro h
  refine ⟨rfl, fun hs => ?_⟩
  simp only [Instr.WellFormed, Instr.checks, Instr.fc] at h hs
  rw [hs] at h
  simp at h

end Sys2Proof.Laws.EncodedLength
end

