-- ==== Sys2Proof/Laws/Step.lean ====
section
/-! SUPPORT. What one step can do, said once: an inversion lemma for the step, for each event, and for the
item rules of each transport. -/

namespace Sys2Proof.Machine

/-! ### EXEC of a PDU -/

/-- A decoded request keeps the first byte of its PDU as its function code (spec/40_pdu_codec.md R139). -/
theorem decode_fc {p : List Byte} {i : Instr} (h : decode p = .ok i) : i.fc = p.getD 0 0 := by
  have two : ∀ {mk fields}, decodeTwoFields mk fields = .ok i → ∃ a b, i = mk a b := by
    intro mk fields h
    unfold decodeTwoFields at h
    split at h
    · exact ⟨_, _, (Except.ok.inj h).symm⟩
    · cases h
  have coil : ∀ {fields}, decodeCoil fields = .ok i → ∃ a b, i = .writeSingleCoil a b := by
    intro fields h
    unfold decodeCoil at h
    split at h
    · split at h
      · exact ⟨_, _, (Except.ok.inj h).symm⟩
      · cases h
    · cases h
  have multiple : ∀ {need mk fields}, decodeMultiple need mk fields = .ok i →
      ∃ a b c d, i = mk a b c d := by
    intro need mk fields h
    unfold decodeMultiple at h
    split at h
    · split at h
      · cases h
      · split at h
        · cases h
        · exact ⟨_, _, _, _, (Except.ok.inj h).symm⟩
    · cases h
  cases p with
  | nil => cases h
  | cons fc fields =>
    simp only [decode, decodeFc] at h
    repeat' split at h
    all_goals first
      | (obtain ⟨a, b, rfl⟩ := two h; exact Eq.symm ‹fc = _›)
      | (obtain ⟨a, b, rfl⟩ := coil h; exact Eq.symm ‹fc = _›)
      | (obtain ⟨a, b, c, d, rfl⟩ := multiple h; exact Eq.symm ‹fc = _›)
      | (cases h; rfl)

/-- EXEC of a PDU is a request step on its first byte, whether the codec accepts it or not; what its success
does to the store is `performOf_ok`'s. The laws of `request`, the unit filter's among them, then apply. -/
theorem execPdu_eq_request (p : List Byte) (s : State) :
    ∃ perform, execPdu p s = request (p.getD 0 0) perform s ∧
      ∀ s' r, perform s = .ok (s', r) →
        s' = s ∨
        (∃ a vs, a + vs.length ≤ s.bitCapacity .coils ∧ s' = s.memWriteBits .coils a vs) ∨
        (∃ a vs, a + vs.length ≤ s.wordCapacity .hr ∧ s' = s.memWriteWords .hr a vs) := by
  unfold execPdu
  split
  · rename_i i hi
    exact ⟨performOf i, by rw [exec_eq_request, decode_fc hi], fun _ _ h => performOf_ok h⟩
  · exact ⟨_, rfl, fun _ _ h => by simp [performRaise] at h⟩

/-! ### The item rules -/

/-- The instances a TCP item rule can leave without EXEC (spec/41_mbap_tcp.md R151 to R157). -/
theorem tcpItem_next {E : Engine} {item : Item} {s t : State} (h : tcpItem E item s = .next t) :
    (∃ b, item = .byte b ∧ E.phase = .tcpHdr ∧ t = s.setEngine (E.headerByte b)) ∨
    (∃ b hd, item = .byte b ∧ E.phase = .tcpBody ∧ E.hdr = some hd ∧
      ((E.buf.length + 1 = hd.len.toNat - 1 ∧
        execPdu (E.buf ++ [b]) (s.setEngine { E with buf := E.buf ++ [b] }) = .next t) ∨
       (E.buf.length + 1 ≠ hd.len.toNat - 1 ∧ t = s.setEngine { E with buf := E.buf ++ [b] }))) ∨
    (item = .eos ∧ E.phase = .tcpHdr ∧ t = s.setEngine E.headerEos) ∨
    (item = .eos ∧ E.phase = .tcpBody ∧ t = s.setEngine E.frameError) := by
  unfold tcpItem at h
  split at h
  · simp at h
  · rename_i b
    split at h
    · exact .inl ⟨b, rfl, by assumption, by simpa using h.symm⟩
    · refine .inr (.inl ?_)
      unfold tcpBodyByte at h
      split at h
      · simp at h
      · rename_i hd hhd
        refine ⟨b, hd, rfl, by assumption, hhd, ?_⟩
        simp only [List.length_append, List.length_cons, List.length_nil, Nat.zero_add] at h
        split at h
        · exact .inl ⟨by assumption, h⟩
        · exact .inr ⟨by assumption, by simpa using h.symm⟩
    · simp at h
    · simp at h
  · split at h
    · exact .inr (.inr (.inl ⟨rfl, by assumption, by simpa using h.symm⟩))
    · exact .inr (.inr (.inr ⟨rfl, by assumption, by simpa using h.symm⟩))
    · simp at h
    · simp at h

/-- What an RTU item rule can do (spec/42_rtu_crc.md R189 to R195). -/
theorem rtuItem_next {E : Engine} {item : Item} {s t : State} (h : rtuItem E item s = .next t) :
    (∃ b, item = .byte b ∧ E.phase = .rtuRecv ∧ t = s.setEngine (E.rtuByte b)) ∨
    (item = .gap ∧ E.phase = .rtuRecv ∧ E.buf = [] ∧ t = s.setEngine E) ∨
    (item = .gap ∧ E.phase = .rtuRecv ∧ E.buf ≠ [] ∧ E.buf.length < 4 ∧
      t = s.setEngine (E.drop .dropFrame)) ∨
    (item = .gap ∧ E.phase = .rtuRecv ∧ 4 ≤ E.buf.length ∧ crcPasses E.buf = true ∧
      execPdu (rtuPdu E.buf) (s.setEngine E) = .next t) ∨
    (item = .gap ∧ E.phase = .rtuRecv ∧ 4 ≤ E.buf.length ∧ crcPasses E.buf = false ∧
      t = s.setEngine (E.drop .dropCrc)) ∨
    (∃ b, item = .byte b ∧ E.phase = .rtuDiscard ∧ t = s.setEngine E) ∨
    (item = .gap ∧ E.phase = .rtuDiscard ∧ t = s.setEngine (E.drop .dropFrame)) ∨
    (item = .eos ∧ t = s.setEngine E.rtuEos) := by
  unfold rtuItem at h
  split at h
  · rename_i hp
    split at h
    · rename_i b
      exact .inl ⟨b, rfl, hp, by simpa using h.symm⟩
    · unfold rtuGap at h
      split at h
      · exact .inr (.inl ⟨rfl, hp, List.eq_nil_of_length_eq_zero (by assumption), by simpa using h.symm⟩)
      · rename_i h0
        have h0 : E.buf ≠ [] := by simpa using h0
        split at h
        · exact .inr (.inr (.inl ⟨rfl, hp, h0, by assumption, by simpa using h.symm⟩))
        · rename_i h4
          have h4 : 4 ≤ E.buf.length := Nat.le_of_not_lt h4
          split at h
          · exact .inr (.inr (.inr (.inl ⟨rfl, hp, h4, by assumption, h⟩)))
          · rename_i hc
            exact .inr (.inr (.inr (.inr (.inl
              ⟨rfl, hp, h4, Bool.eq_false_iff.mpr hc, by simpa using h.symm⟩))))
    · exact .inr (.inr (.inr (.inr (.inr (.inr (.inr ⟨rfl, by simpa using h.symm⟩))))))
  · rename_i hp
    split at h
    · rename_i b
      exact .inr (.inr (.inr (.inr (.inr (.inl ⟨b, rfl, hp, by simpa using h.symm⟩)))))
    · exact .inr (.inr (.inr (.inr (.inr (.inr (.inl ⟨rfl, hp, by simpa using h.symm⟩))))))
    · exact .inr (.inr (.inr (.inr (.inr (.inr (.inr ⟨rfl, by simpa using h.symm⟩))))))
  · simp at h
  · simp at h

/-! ### The events -/

theorem consume_receiving {s : State} {k : Nat} {E : Engine} {item : Item} {more : List Item}
    (h : Receiving s k E item more) :
    consume k s = itemRule { E with input := more } item { s with cur := k } := by
  obtain ⟨hE, hs, hp, hi⟩ := h
  simp only [consume, hE, hs, hp, hi]

theorem consume_idle {s : State} {k : Nat} {E : Engine} (hE : s.engines[k]? = some E)
    (h : E.sess = .closed ∨ E.txPending ≠ none ∨ E.input = []) : consume k s = .next s := by
  simp only [consume, hE]
  split
  · simp_all
  · rfl

/-- An instance either has its next item taken by its item rules or does nothing. -/
theorem consume_cases (k : Nat) (s : State) :
    consume k s = .refused .noSuchSession ∨ consume k s = .next s ∨
    ∃ E item more, Receiving s k E item more ∧
      consume k s = itemRule { E with input := more } item { s with cur := k } := by
  cases hE : s.engines[k]? with
  | none => exact .inl (by simp [consume, hE])
  | some E =>
    by_cases h : E.sess = .closed ∨ E.txPending ≠ none ∨ E.input = []
    · exact .inr (.inl (consume_idle hE h))
    · simp only [not_or] at h
      obtain ⟨h1, h2, h3⟩ := h
      have hs : E.sess = .opened := by cases hs : E.sess <;> simp_all
      obtain ⟨item, more, hi⟩ : ∃ item more, E.input = item :: more := List.exists_cons_of_ne_nil h3
      have hr : Receiving s k E item more := ⟨hE, hs, by simpa using h2, hi⟩
      exact .inr (.inr ⟨E, item, more, hr, consume_receiving hr⟩)

theorem emit_next {k : Nat} {b : Bool} {s t : State} (h : emit k b s = .next t) :
    t = s ∨ ∃ E p, s.engines[k]? = some E ∧ E.sess = .opened ∧ E.txPending = some p ∧
      t = { s with cur := k }.setEngine (if b then E.emitAccepted p else E.emitFailed) := by
  unfold emit at h
  split at h
  · simp at h
  · rename_i E hE
    split at h
    · exact .inr ⟨E, _, hE, by assumption, by assumption, by simpa using h.symm⟩
    · exact .inl (by simpa using h.symm)

theorem feed_next {k : Nat} {item : Item} {s t : State} (h : feed k item s = .next t) :
    ∃ E, s.engines[k]? = some E ∧ ¬(E.mode = .tcp ∧ item = .gap) ∧
      t = { s with engines := s.engines.set k { E with input := E.input ++ [item] } } := by
  unfold feed at h
  split at h
  · simp at h
  · rename_i E hE
    split at h
    · simp at h
    · exact ⟨E, hE, by assumption, by simpa using h.symm⟩

theorem connect_next {s t : State} (h : connect s = .next t) :
    s.epoch = .running ∧ t = { s with engines := s.engines ++ [Engine.create s.cfg.mode] } ∧
      (s.cfg.mode = .tcp → s.roomForSession = true) ∧ (s.cfg.mode = .rtu → s.engines = []) := by
  unfold connect at h
  split at h
  · simp at h
  · rename_i he
    refine ⟨he, ?_⟩
    dsimp only at h
    split at h <;> split at h <;> simp_all

theorem hostWriteBits_next {t : BitTable} {a : Nat} {vs : List Bool} {s s' : State}
    (h : hostWriteBits t a vs s = .next s') :
    s.epoch = .running ∧ a + vs.length ≤ s.bitCapacity t ∧ s' = s.memWriteBits t a vs := by
  unfold hostWriteBits at h
  split at h
  · simp at h
  · split at h
    · exact ⟨by assumption, by assumption, by simpa using h.symm⟩
    · simp at h

theorem hostWriteWords_next {t : WordTable} {a : Nat} {vs : List Word} {s s' : State}
    (h : hostWriteWords t a vs s = .next s') :
    s.epoch = .running ∧ a + vs.length ≤ s.wordCapacity t ∧ s' = s.memWriteWords t a vs := by
  unfold hostWriteWords at h
  split at h
  · simp at h
  · split at h
    · exact ⟨by assumption, by assumption, by simpa using h.symm⟩
    · simp at h

theorem restart_next {p : Params} {s t : State} (h : restart p s = .next t) :
    s.epoch = .ended ∧ p.typed ∧ p.preset.addressable ∧
      t = { State.boot p with schedule := s.schedule } := by
  unfold restart at h
  split at h
  · simp at h
  · split at h
    · simp at h
    · rename_i he ht
      split at h
      · simp at h
      · rename_i ha
        exact ⟨he, not_not.mp ht, not_not.mp ha, by simpa using h.symm⟩

/-! ### The step -/

theorem step_idle {s : State} (h : s.schedule = []) : step s = .next s := by simp [step, h]

theorem step_event {s : State} {e : Event} {rest : List Event} (h : s.schedule = e :: rest) :
    step s = stepEvent e { s with schedule := rest } := by simp [step, h]

theorem step_next {s t : State} (h : step s = .next t) :
    (s.schedule = [] ∧ t = s) ∨
      ∃ e rest, s.schedule = e :: rest ∧ stepEvent e { s with schedule := rest } = .next t := by
  cases hs : s.schedule with
  | nil => exact .inl ⟨rfl, by simpa [step, hs] using h.symm⟩
  | cons e rest => exact .inr ⟨e, rest, rfl, by rwa [step_event hs] at h⟩

end Sys2Proof.Machine
end

