-- ==== Sys2Proof/Tests/Slice0.lean ====
section
/-! SUPPORT. Tests. Part 1: words written out from spec/30_encoding.md and what they decode to. Part 2: the
format checks refuse an ill-formed request each. Part 3: one step each on vectors of
spec/95_test_vectors.md. Part 4: for each statement of Obligations.lean with hypotheses, a state and
operands that meet them. -/

namespace Sys2Proof.Tests

open Sys2Proof Sys2Proof.Machine

/-! ### Part 1. Decoding (expected results: spec/95_test_vectors.md T1, T5, V2 to V5) -/

theorem test_decode_readCoils : decode [0x01, 0x00, 0x00, 0x07, 0xD0] = .ok (.readCoils 0 2000) := by
  decide

theorem test_decode_readDiscreteInputs :
    decode [0x02, 0x00, 0x30, 0x00, 0x04] = .ok (.readDiscreteInputs 48 4) := by decide

theorem test_decode_readHoldingRegisters :
    decode [0x03, 0x00, 0x5F, 0x00, 0x0A] = .ok (.readHoldingRegisters 95 10) := by decide

theorem test_decode_readInputRegisters :
    decode [0x04, 0xFF, 0xFF, 0x00, 0x01] = .ok (.readInputRegisters 65535 1) := by decide

theorem test_decode_writeSingleCoil :
    decode [0x05, 0x00, 0x01, 0xFF, 0x00] = .ok (.writeSingleCoil 1 0xFF00) := by decide

theorem test_decode_writeSingleRegister :
    decode [0x06, 0x12, 0x34, 0xAB, 0xCD] = .ok (.writeSingleRegister 0x1234 0xABCD) := by decide

theorem test_decode_writeMultipleCoils :
    decode [0x0F, 0x00, 0x05, 0x00, 0x0A, 0x02, 0xCD, 0x01] =
      .ok (.writeMultipleCoils 5 10 2 [0xCD, 0x01]) := by decide

theorem test_decode_writeMultipleRegisters :
    decode [0x10, 0x00, 0x01, 0x00, 0x02, 0x04, 0x00, 0x0A, 0x01, 0x02] =
      .ok (.writeMultipleRegisters 1 2 4 [0x00, 0x0A, 0x01, 0x02]) := by decide

theorem test_decode_unsupportedBit7 : decode [0xFF] = .ok (.unsupportedBit7 0xFF []) := by decide

theorem test_decode_unsupportedDefault :
    decode [0x2B, 0x0E, 0x01, 0x00] = .ok (.unsupportedDefault 0x2B [0x0E, 0x01, 0x00]) := by decide

/-- A request that raises no format exception in the table's words: the table gives a row 8 bits. -/
theorem test_decodeTableWord :
    decodeTableWord 8 0x05 = some (.writeSingleCoil 0 0) ∧
    decodeTableWord 8 0x0F = some (.writeMultipleCoils 0 0 0 []) ∧
    decodeTableWord 8 0x83 = some (.unsupportedBit7 0x83 []) := by decide

/-! ### Part 2. WellFormed refuses -/

theorem test_illformed_coilValue : ¬(Instr.writeSingleCoil 1 0x00FF).WellFormed := by decide

theorem test_illformed_coilDataLength : ¬(Instr.writeMultipleCoils 0 10 2 [0xCD]).WellFormed := by
  decide

theorem test_illformed_coilByteCount : ¬(Instr.writeMultipleCoils 0 10 1 [0xCD]).WellFormed := by
  decide

theorem test_illformed_registerDataLength :
    ¬(Instr.writeMultipleRegisters 0 124 248 []).WellFormed := by decide

theorem test_illformed_registerByteCount :
    ¬(Instr.writeMultipleRegisters 0 2 3 [0x00, 0x01, 0x00]).WellFormed := by decide

theorem test_illformed_bit7Clear : ¬(Instr.unsupportedBit7 0x07 []).WellFormed := by decide

theorem test_illformed_bit7Set : ¬(Instr.unsupportedDefault 0x80 []).WellFormed := by decide

theorem test_illformed_supported : ¬(Instr.unsupportedDefault 0x10 []).WellFormed := by decide

/-- The decoder refuses the same, and lengths (V3, V4). -/
theorem test_decode_refuses :
    decode [] = .error .emptyPdu ∧
    decode [0x01, 0x00, 0x00, 0x00] = .error .badLength ∧
    decode [0x06, 0x00, 0x05, 0x00, 0x2A, 0x00] = .error .badLength ∧
    decode [0x05, 0x00, 0x01, 0xFF, 0x01] = .error .badCoilValue ∧
    decode [0x0F, 0x00, 0x00, 0x00, 0x0A, 0x01, 0xCD] = .error .badByteCount ∧
    decode [0x10, 0x00, 0x00, 0x00, 0x7C, 0xF8] = .error .badLength := by decide

/-! ### Part 3. One step each (expected results: spec/95_test_vectors.md) -/

/-- The state after a step, or `s` itself where it stopped. -/
def after (s : State) : State :=
  match step s with
  | .next t => t
  | .fault _ => s
  | .refused _ => s

/-- The reset store serves one request PDU on TCP: the response PDU that waits, with its status. -/
def answer (pdu : List Byte) : Option (List Byte × Word) :=
  (after (State.reset.withRequest pdu)).engine?.bind fun E =>
    E.txPending.map fun p => (p.frame.drop 7, p.status)

/-- Cells of HR after the request. -/
def hrAfter (pdu : List Byte) (a : Nat) : Option Word :=
  (after (State.reset.withRequest pdu)).word? .hr a

/-- Cells of COILS after the request, `n` of them. -/
def coilsAfter (pdu : List Byte) (n : Nat) : List Bool :=
  (after (State.reset.withRequest pdu)).memReadBits .coils 0 n

/-- V2: ten coils. -/
theorem test_readCoils : answer [0x01, 0x00, 0x00, 0x00, 0x0A] = some ([0x01, 0x02, 0x55, 0x01], 0x0001) := by
  decide

/-- V2: 65535 + 1, no wrap. -/
theorem test_readCoils_nowrap : answer [0x01, 0xFF, 0xFF, 0x00, 0x01] = some ([0x81, 0x02], 0x0202) := by
  decide

/-- V2: DI[48..51]. -/
theorem test_readDiscreteInputs : answer [0x02, 0x00, 0x30, 0x00, 0x04] = some ([0x02, 0x01, 0x03], 0x0001) := by
  decide

/-- V2: the last register. -/
theorem test_readHoldingRegisters :
    answer [0x03, 0x00, 0x63, 0x00, 0x01] = some ([0x03, 0x02, 0x00, 0x63], 0x0001) := by decide

/-- V2: qty 200 is IllegalDataValue, not IllegalDataAddress. -/
theorem test_readHoldingRegisters_count :
    answer [0x03, 0x00, 0x00, 0x00, 0xC8] = some ([0x83, 0x03], 0x0302) := by decide

/-- V2: IR[0..1]. -/
theorem test_readInputRegisters :
    answer [0x04, 0x00, 0x00, 0x00, 0x02] = some ([0x04, 0x04, 0x03, 0xE8, 0x03, 0xE9], 0x0001) := by
  decide

/-- V3: coil 1 on. -/
theorem test_writeSingleCoil :
    answer [0x05, 0x00, 0x01, 0xFF, 0x00] = some ([0x05, 0x00, 0x01, 0xFF, 0x00], 0x0001) ∧
    coilsAfter [0x05, 0x00, 0x01, 0xFF, 0x00] 3 = [true, true, true] := by decide

/-- V3: a bad value at a bad address is IllegalDataValue. -/
theorem test_writeSingleCoil_value :
    answer [0x05, 0x00, 0x64, 0x12, 0x34] = some ([0x85, 0x03], 0x0302) := by decide

/-- V3: HR[99] = 65535. -/
theorem test_writeSingleRegister :
    answer [0x06, 0x00, 0x63, 0xFF, 0xFF] = some ([0x06, 0x00, 0x63, 0xFF, 0xFF], 0x0001) ∧
    hrAfter [0x06, 0x00, 0x63, 0xFF, 0xFF] 99 = some 0xFFFF := by decide

/-- V4: ten coils, then the padding of a three-coil write is ignored. -/
theorem test_writeMultipleCoils :
    coilsAfter [0x0F, 0x00, 0x00, 0x00, 0x0A, 0x02, 0xCD, 0x01] 10 =
      [true, false, true, true, false, false, true, true, true, false] ∧
    coilsAfter [0x0F, 0x00, 0x00, 0x00, 0x03, 0x01, 0xFF] 6 =
      [true, true, true, false, true, false] := by decide

/-- V4: HR[1] = 10, HR[2] = 258. -/
theorem test_writeMultipleRegisters :
    hrAfter [0x10, 0x00, 0x01, 0x00, 0x02, 0x04, 0x00, 0x0A, 0x01, 0x02] 1 = some 10 ∧
    hrAfter [0x10, 0x00, 0x01, 0x00, 0x02, 0x04, 0x00, 0x0A, 0x01, 0x02] 2 = some 258 := by decide

/-- V4: one cell past the end writes nothing, not even HR[99]. -/
theorem test_writeMultipleRegisters_bounds :
    answer [0x10, 0x00, 0x63, 0x00, 0x02, 0x04, 0x00, 0x01, 0x00, 0x02] = some ([0x90, 0x02], 0x0202) ∧
    hrAfter [0x10, 0x00, 0x63, 0x00, 0x02, 0x04, 0x00, 0x01, 0x00, 0x02] 99 = some 99 := by decide

/-- V5. -/
theorem test_unsupportedBit7 : answer [0x83, 0x00, 0x00] = some ([0x83, 0x01], 0x0102) := by decide

/-- V5. -/
theorem test_unsupportedDefault : answer [0x2B, 0x0E, 0x01, 0x00] = some ([0xAB, 0x01], 0x0102) := by
  decide

/-- V1: the running register over `01 03 00 00 00 0A`, and a wire form. -/
theorem test_crc :
    crc16 [0x01] = 0x807E ∧ crc16 [0x01, 0x03] = 0x2140 ∧ crc16 [0x01, 0x03, 0x00] = 0xF020 ∧
    crcAppend [0x01, 0x83, 0x02] = [0x01, 0x83, 0x02, 0xC0, 0xF1] := by decide +kernel

/-! ### Part 4. Witnesses -/

/-- A store whose tables are as large as the largest read. -/
def wide : Params where
  mode         := .tcp
  unitId       := 1
  unitFilterEn := true
  preset       := {
    coils := List.replicate 2000 true, di := List.replicate 2000 false
    hr := List.replicate 125 7, ir := List.replicate 125 9 }
  maxSessions  := some 2
  baud         := 9600

theorem wide_coils : wide.preset.coils.length = 2000 := List.length_replicate

theorem wide_di : wide.preset.di.length = 2000 := List.length_replicate

theorem wide_hr : wide.preset.hr.length = 125 := List.length_replicate

theorem wide_ir : wide.preset.ir.length = 125 := List.length_replicate

/-- A TCP instance with the complete PDU `03 00 00 00 0A` of a frame to unit 1. -/
def tcpFull : Engine :=
  { Engine.create .tcp with
    phase := .tcpBody, buf := [0x03, 0x00, 0x00, 0x00, 0x0A],
    hdr := some { tid := 1, pid := 0, len := 6, uid := 1 } }

/-- An RTU instance with the complete frame of T3, to unit 1. -/
def rtuFull : Engine :=
  { Engine.create .rtu with
    buf := [0x01, 0x03, 0x00, 0x00, 0x00, 0x0A, 0xC5, 0xCD], crc := 0x0000 }

/-- `E` as the only instance of a block with the wide store. -/
def alone (E : Engine) : State := { State.boot wide with engines := [E] }

theorem alone_preset (E : Engine) : (alone E).preset = wide.preset := rfl

theorem witness_serving :
    Serving (alone tcpFull) tcpFull (.tcp 1 1) ∧ Serving (alone rtuFull) rtuFull (.rtu 1) := by decide

/-- A step's outcome is a next state. -/
def goesOn (o : Host.Outcome State Fault Refusal) : Bool :=
  match o with
  | .next _ => true
  | .fault _ => false
  | .refused _ => false

theorem next_of_goesOn {o : Host.Outcome State Fault Refusal} (h : goesOn o = true) :
    ∃ t, o = .next t := by
  cases o with
  | next t => exact ⟨t, rfl⟩
  | fault f => simp [goesOn] at h
  | refused r => simp [goesOn] at h

/-- DecodeAndEncodeAreInverse: FC15 with padding bits, and an unsupported code. -/
theorem witness_DecodeAndEncodeAreInverse :
    (Instr.writeMultipleCoils 0 3 1 [0xFF]).WellFormed ∧ (Instr.unsupportedBit7 0x80 [0x01]).WellFormed ∧
    decode [0x0F, 0x00, 0x00, 0x00, 0x03, 0x01, 0xFF] = .ok (.writeMultipleCoils 0 3 1 [0xFF]) := by
  decide

/-- DecoderIsThePseudocodeOfTheCodec: the shortest PDU. -/
theorem witness_DecoderIsThePseudocodeOfTheCodec : ([0x01] : List Byte) ≠ [] := by decide

/-- WrongLengthRaisesIllegalDataValue: one byte short, one too long, no byte count, one data byte short. -/
theorem witness_WrongLengthRaisesIllegalDataValue :
    ((0x06 : Byte) ∈ ([0x01, 0x02, 0x03, 0x04, 0x05, 0x06] : List Byte) ∧
      ([0, 0, 0] : List Byte).length ≠ 4 ∧ ([0, 0, 0, 0, 0] : List Byte).length ≠ 4) ∧
    ((0x0F : Byte) ∈ ([0x0F, 0x10] : List Byte) ∧ ([0, 0, 0, 0] : List Byte).length < 5) ∧
    ((0x10 : Byte) ∈ ([0x0F, 0x10] : List Byte) ∧ ([0xCD] : List Byte).length ≠ (2 : Byte).toNat) := by
  decide

/-- AssembledMultipleWritesDecodeToTheirValues: the write maxima. -/
theorem witness_AssembledMultipleWritesDecodeToTheirValues :
    (List.replicate 1968 true).length ≤ 1968 ∧ (List.replicate 123 (0xABCD : Word)).length ≤ 123 :=
  ⟨List.length_replicate.le, List.length_replicate.le⟩

/-- BitPackingIsLeastSignificantFirst: the last bit of a byte. -/
theorem witness_BitPackingIsLeastSignificantFirst : (7 : Nat) < 8 := by decide

/-- TableDrivenCrcIsTheBitwiseCrc: the last entry. -/
theorem witness_TableDrivenCrcIsTheBitwiseCrc : (255 : Nat) < 256 := by decide

/-- FrameCheckFormsAgree: the shortest string with a CRC, that of V1's empty input. -/
theorem witness_FrameCheckFormsAgree : 2 ≤ ([0xFF, 0xFF] : List Byte).length := by decide

/-- SingleBitErrorsAreAlwaysDetected: the last bit of a byte, and the last bit of the CRC of the shortest
frame (V1). -/
theorem witness_SingleBitErrorsAreAlwaysDetected :
    7 < 8 * ([0x01] : List Byte).length ∧
    (4 ≤ ([0x01, 0x03, 0x40, 0x21] : List Byte).length ∧
      crcMatches [0x01, 0x03, 0x40, 0x21] = true ∧
      31 < 8 * ([0x01, 0x03, 0x40, 0x21] : List Byte).length) := by decide +kernel

/-- DefaultPresetCells: the last cell and the first address past it. -/
theorem witness_DefaultPresetCells : (99 : Nat) < 100 ∧ (100 : Nat) ≤ 100 := by decide

/-- ConfigurationIsFixedForTheEpoch: an Abort. -/
theorem witness_ConfigurationIsFixedForTheEpoch :
    (∃ t, step { alone tcpFull with schedule := [.abort] } = .next t) ∧
    (∀ p, ({ alone tcpFull with schedule := [.abort] } : State).schedule.head? ≠ some (.restart p)) := by
  refine ⟨next_of_goesOn (by decide), ?_⟩
  intro p h
  cases h

/-- NewInstanceStartsInItsResetState: the last session MAX_SESSIONS = 2 admits, and the RTU session. -/
theorem witness_NewInstanceStartsInItsResetState :
    (∃ s : State, s.schedule = [.connect] ∧ s.epoch = .running ∧ s.cfg.mode = .tcp ∧
      ∀ n, s.maxSessions = some n → s.openCount < n) ∧
    (∃ s : State, s.schedule = [.connect] ∧ s.epoch = .running ∧ s.cfg.mode = .rtu ∧ s.engines = []) := by
  refine ⟨⟨{ alone tcpFull with schedule := [.connect] }, rfl, rfl, rfl, ?_⟩,
    ⟨{ State.boot { wide with mode := .rtu } with schedule := [.connect] }, rfl, rfl, rfl, rfl⟩⟩
  intro n hn
  cases hn
  decide

/-- A preset one cell larger than an address reaches, in HR. -/
def oversized : Params := { wide with preset := { wide.preset with hr := List.replicate 65537 0 } }

theorem oversized_hr : oversized.preset.hr.length = 65537 := List.length_replicate

/-- HostRequestsTheSpecRefusesAreRefused, clause by clause: the hook one cell past the end of each table. -/
theorem witness_HostRequestsTheSpecRefusesAreRefused :
    (∃ s : State, s.schedule = [.connect] ∧ s.epoch = .running ∧ s.cfg.mode = .tcp ∧
      s.maxSessions = some 2 ∧ 2 ≤ s.openCount) ∧
    (∃ s : State, s.schedule = [.connect] ∧ s.epoch = .running ∧ s.cfg.mode = .rtu ∧ s.engines ≠ []) ∧
    (∃ s : State, s.schedule = [.feed 0 .gap] ∧ s.engines[0]? = some tcpFull ∧ tcpFull.mode = .tcp) ∧
    (∃ s : State, s.schedule = [.reconfigure wide]) ∧
    (∀ tab, ∃ s : State, s.schedule = [.hostWriteBits tab 99 [true, false]] ∧ s.epoch = .running ∧
      s.bitCapacity tab < 99 + ([true, false] : List Bool).length) ∧
    (∀ tab, ∃ s : State, s.schedule = [.hostWriteWords tab 99 [1, 2]] ∧ s.epoch = .running ∧
      s.wordCapacity tab < 99 + ([1, 2] : List Word).length) ∧
    (∃ s : State, s.schedule = [.restart oversized] ∧ s.epoch = .ended ∧ oversized.typed ∧
      ¬oversized.preset.addressable) := by
  refine ⟨⟨{ State.boot wide with engines := [tcpFull, tcpFull], schedule := [.connect] },
      rfl, rfl, rfl, rfl, by decide⟩,
    ⟨{ State.boot { wide with mode := .rtu } with engines := [rtuFull], schedule := [.connect] },
      rfl, rfl, rfl, by decide⟩,
    ⟨{ alone tcpFull with schedule := [.feed 0 .gap] }, rfl, rfl, rfl⟩,
    ⟨{ State.boot wide with schedule := [.reconfigure wide] }, rfl⟩,
    fun tab => ⟨{ State.reset with schedule := [.hostWriteBits tab 99 [true, false]] }, rfl, rfl,
      by cases tab <;> decide⟩,
    fun tab => ⟨{ State.reset with schedule := [.hostWriteWords tab 99 [1, 2]] }, rfl, rfl,
      by cases tab <;> decide⟩,
    ⟨{ State.boot wide with epoch := .ended, schedule := [.restart oversized] }, rfl, rfl, by decide, ?_⟩⟩
  intro h
  have hr := h.2.2.1
  rw [oversized_hr] at hr
  omega

/-- ProcessStartGivesTheResetState: a start after the epoch with sessions and written cells left over, and
one within the epoch. -/
theorem witness_ProcessStartGivesTheResetState :
    (∃ s : State, s.schedule = [.restart Params.default] ∧ s.epoch = .ended ∧ Params.default.typed ∧
      Params.default.preset.addressable ∧ s.store ≠ Memory.empty ∧ s.engines ≠ []) ∧
    (∃ s : State, s.schedule = [.restart Params.default] ∧ s.epoch = .running) :=
  ⟨⟨{ alone { tcpFull with sess := .closed } with
      store := { Memory.empty with hr := [(99, 5)] }, epoch := .ended,
      schedule := [.restart Params.default] }, rfl, rfl, by decide, by decide, by decide, by decide⟩,
    ⟨{ State.reset with schedule := [.restart Params.default] }, rfl, rfl⟩⟩

/-- MemWriteSetsExactlyTheTargetCells and HostWriteChangesOnlyItsCells: the last two cells. -/
theorem witness_MemWriteSetsExactlyTheTargetCells :
    98 + ([true, false] : List Bool).length ≤ State.reset.bitCapacity .di ∧
    98 + ([1, 2] : List Word).length ≤ State.reset.wordCapacity .hr ∧
    BitTable.coils ≠ .di ∧ WordTable.ir ≠ .hr ∧ ¬(98 ≤ 97 ∧ 97 < 98 + ([1, 2] : List Word).length) := by
  decide

/-- CanonicalStoresThatReadAlikeAreEqual: a store with one written cell. -/
theorem witness_CanonicalStoresThatReadAlikeAreEqual :
    ∃ s t : State, s.preset = t.preset ∧ Memory.wf s.preset s.store ∧ Memory.wf t.preset t.store ∧
      sameCells s t ∧ s.store ≠ Memory.empty :=
  ⟨{ State.reset with store := { Memory.empty with hr := [(99, 5)] } },
    { State.reset with store := { Memory.empty with hr := [(99, 5)] }, cur := 1 }, rfl, by decide,
    by decide, ⟨fun _ _ => rfl, fun _ _ => rfl⟩, by decide⟩

theorem witness_HostWriteChangesOnlyItsCells :
    (∃ s : State, s.schedule = [.hostWriteBits .di 98 [true, false]] ∧ s.epoch = .running ∧
      98 + ([true, false] : List Bool).length ≤ s.bitCapacity .di) ∧
    (∃ s : State, s.schedule = [.hostWriteWords .ir 98 [1, 2]] ∧ s.epoch = .running ∧
      98 + ([1, 2] : List Word).length ≤ s.wordCapacity .ir) :=
  ⟨⟨{ State.reset with schedule := [.hostWriteBits .di 98 [true, false]] }, rfl, rfl, by decide⟩,
    ⟨{ State.reset with schedule := [.hostWriteWords .ir 98 [1, 2]] }, rfl, rfl, by decide⟩⟩

/-- ReadBitsAnswerThePackedCells: the maximum count up to the last cell, and the last cell alone. -/
theorem witness_ReadBitsAnswerThePackedCells :
    Serving (alone tcpFull) tcpFull (.tcp 1 1) ∧
    (1 ≤ (2000 : Word).toNat ∧ (2000 : Word).toNat ≤ 2000 ∧
      (0 : Word).toNat + (2000 : Word).toNat ≤ (alone tcpFull).preset.coils.length ∧
      (0 : Word).toNat + (2000 : Word).toNat ≤ (alone tcpFull).preset.di.length) ∧
    (1 ≤ (1 : Word).toNat ∧ (1999 : Word).toNat + (1 : Word).toNat ≤ (alone tcpFull).preset.di.length) := by
  refine ⟨witness_serving.1, ?_⟩
  simp only [alone_preset, wide_coils, wide_di]
  decide

/-- ReadWordsAnswerTheCellsHighByteFirst: the same, on RTU. -/
theorem witness_ReadWordsAnswerTheCellsHighByteFirst :
    Serving (alone rtuFull) rtuFull (.rtu 1) ∧
    (1 ≤ (125 : Word).toNat ∧ (125 : Word).toNat ≤ 125 ∧
      (0 : Word).toNat + (125 : Word).toNat ≤ (alone rtuFull).preset.hr.length ∧
      (0 : Word).toNat + (125 : Word).toNat ≤ (alone rtuFull).preset.ir.length) ∧
    (1 ≤ (1 : Word).toNat ∧ (124 : Word).toNat + (1 : Word).toNat ≤ (alone rtuFull).preset.ir.length) := by
  refine ⟨witness_serving.2, ?_⟩
  simp only [alone_preset, wide_hr, wide_ir]
  decide

/-- WriteSingleCoilSetsOneCoilAndEchoes and WriteSingleRegisterSetsOneRegisterAndEchoes: the last cell. -/
theorem witness_WriteSingle :
    Serving (alone tcpFull) tcpFull (.tcp 1 1) ∧
    (1999 : Word).toNat < (alone tcpFull).preset.coils.length ∧
    (124 : Word).toNat < (alone tcpFull).preset.hr.length ∧
    ((0x0000 : Word) = 0xFF00 ∨ (0x0000 : Word) = 0x0000) ∧
    ((0xFF00 : Word) = 0xFF00 ∨ (0xFF00 : Word) = 0x0000) := by
  refine ⟨witness_serving.1, ?_⟩
  simp only [alone_preset, wide_coils, wide_hr]
  decide

/-- WriteMultipleCoilsSetsTheRange: the maximum, ending at the last coil. -/
theorem witness_WriteMultipleCoilsSetsTheRange :
    Serving (alone tcpFull) tcpFull (.tcp 1 1) ∧
    (Instr.writeMultipleCoils 32 1968 246 (List.replicate 246 0xFF)).WellFormed ∧
    1 ≤ (1968 : Word).toNat ∧ (1968 : Word).toNat ≤ 1968 ∧
    (32 : Word).toNat + (1968 : Word).toNat ≤ (alone tcpFull).preset.coils.length := by
  refine ⟨witness_serving.1, ?_, ?_⟩
  · simp only [Instr.WellFormed, Instr.checks, List.length_replicate]
    decide
  · simp only [alone_preset, wide_coils]
    decide

/-- WriteMultipleRegistersSetsTheRange: the maximum, ending at the last register. -/
theorem witness_WriteMultipleRegistersSetsTheRange :
    Serving (alone tcpFull) tcpFull (.tcp 1 1) ∧
    (Instr.writeMultipleRegisters 2 123 246 (List.replicate 246 0xFF)).WellFormed ∧
    1 ≤ (123 : Word).toNat ∧ (123 : Word).toNat ≤ 123 ∧
    (2 : Word).toNat + (123 : Word).toNat ≤ (alone tcpFull).preset.hr.length := by
  refine ⟨witness_serving.1, ?_, by decide, by decide, ?_⟩
  · simp only [Instr.WellFormed, Instr.checks, List.length_replicate]
    decide
  · simp only [alone_preset, wide_hr]
    decide

/-- MultiRegisterWriteIsReadBackWhole: after the maximal write, another session serves a request on the
written store. -/
theorem witness_MultiRegisterWriteIsReadBackWhole :
    (Instr.writeMultipleRegisters 2 123 246 (List.replicate 246 0xFF)).WellFormed ∧
    ∃ t u : State,
      exec (.writeMultipleRegisters 2 123 246 (List.replicate 246 0xFF)) (alone tcpFull) = .next t ∧
      u.store = t.store ∧ u.preset = t.preset ∧ Serving u rtuFull (.rtu 1) := by
  refine ⟨witness_WriteMultipleRegistersSetsTheRange.2.1, ?_⟩
  obtain ⟨t, ht⟩ := next_of_goesOn (o := exec (.writeMultipleRegisters 2 123 246 (List.replicate 246 0xFF))
    (alone tcpFull)) (by decide +kernel)
  exact ⟨t, { t with cfg := (alone rtuFull).cfg, engines := [rtuFull], cur := 0 }, ht, rfl, rfl, rfl, rfl, rfl⟩

/-- UnsupportedCodesAreAnsweredIllegalFunction: on RTU. -/
theorem witness_UnsupportedCodesAreAnsweredIllegalFunction :
    Serving (alone rtuFull) rtuFull (.rtu 1) := witness_serving.2

/-- CountOutOfRangeIsIllegalDataValue: each clause just outside its range, on both sides. -/
theorem witness_CountOutOfRangeIsIllegalDataValue :
    Serving (alone tcpFull) tcpFull (.tcp 1 1) ∧
    ((0 : Word).toNat < 1 ∨ 2000 < (0 : Word).toNat) ∧
    ((2001 : Word).toNat < 1 ∨ 2000 < (2001 : Word).toNat) ∧
    ((126 : Word).toNat < 1 ∨ 125 < (126 : Word).toNat) ∧
    ((1969 : Word).toNat < 1 ∨ 1968 < (1969 : Word).toNat) ∧
    ((124 : Word).toNat < 1 ∨ 123 < (124 : Word).toNat) := by
  refine ⟨witness_serving.1, ?_⟩
  decide

/-- RangePastTheTableIsIllegalDataAddress: each clause with one cell past the end. -/
theorem witness_RangePastTheTableIsIllegalDataAddress :
    Serving (alone tcpFull) tcpFull (.tcp 1 1) ∧
    (1 ≤ (2000 : Word).toNat ∧ (2000 : Word).toNat ≤ 2000 ∧
      (alone tcpFull).preset.coils.length < (1 : Word).toNat + (2000 : Word).toNat ∧
      (alone tcpFull).preset.di.length < (1 : Word).toNat + (2000 : Word).toNat) ∧
    (1 ≤ (125 : Word).toNat ∧ (125 : Word).toNat ≤ 125 ∧
      (alone tcpFull).preset.hr.length < (1 : Word).toNat + (125 : Word).toNat ∧
      (alone tcpFull).preset.ir.length < (1 : Word).toNat + (125 : Word).toNat) ∧
    (alone tcpFull).preset.coils.length < (2000 : Word).toNat + 1 ∧
    (alone tcpFull).preset.hr.length < (125 : Word).toNat + 1 ∧
    (1 ≤ (1968 : Word).toNat ∧ (1968 : Word).toNat ≤ 1968 ∧
      (alone tcpFull).preset.coils.length < (33 : Word).toNat + (1968 : Word).toNat) ∧
    (1 ≤ (123 : Word).toNat ∧ (123 : Word).toNat ≤ 123 ∧
      (alone tcpFull).preset.hr.length < (3 : Word).toNat + (123 : Word).toNat) := by
  refine ⟨witness_serving.1, ?_⟩
  simp only [alone_preset, wide_coils, wide_di, wide_hr, wide_ir]
  decide

/-- CodecFailureIsAnsweredWithItsException: both failures. -/
theorem witness_CodecFailureIsAnsweredWithItsException :
    Serving (alone tcpFull) tcpFull (.tcp 1 1) ∧
    (([0x03] : List Byte) ≠ [] ∧ decodeRequest [0x03] = .error .illegalDataValue) ∧
    (([0x83] : List Byte) ≠ [] ∧ decodeRequest [0x83] = .error .illegalFunction) := by
  refine ⟨witness_serving.1, ?_⟩
  decide

/-- A TCP instance with the complete PDU of a frame to unit 2. -/
def tcpOther : Engine := { tcpFull with hdr := some { tid := 1, pid := 0, len := 6, uid := 2 } }

/-- An RTU instance with a complete frame to unit 0. -/
def rtuOther : Engine := { rtuFull with buf := [0x00, 0x06, 0x00, 0x00, 0x00, 0x07, 0xC9, 0xD9] }

/-- UnitFilterDecidesBeforeTheRequest, on both transports, with PDUs the codec rejects (a length, an FC5
value, a byte count), and its last clause both ways. -/
theorem witness_UnitFilterDecidesBeforeTheRequest :
    ((alone tcpOther).engine? = some tcpOther ∧ tcpOther.envelope = some (.tcp 1 2) ∧
      (alone tcpOther).cfg.unitFilterEn = true ∧
      (Envelope.tcp 1 2).uid ≠ (alone tcpOther).cfg.unitId ∧ tcpOther.mode = .tcp) ∧
    ((alone rtuOther).engine? = some rtuOther ∧ rtuOther.envelope = some (.rtu 0) ∧
      (alone rtuOther).cfg.unitFilterEn = true ∧
      (Envelope.rtu 0).uid ≠ (alone rtuOther).cfg.unitId ∧ rtuOther.mode = .rtu) ∧
    (([0x03] : List Byte) ≠ [] ∧ decode [0x03] = .error .badLength ∧
      decode [0x05, 0x00, 0x01, 0x12, 0x34] = .error .badCoilValue ∧
      decode [0x10, 0x00, 0x00, 0x00, 0x02, 0x01, 0x00] = .error .badByteCount) ∧
    State.reset.cfg.unitFilterEn = false ∧ (1 : Byte) = (alone tcpFull).cfg.unitId := by decide

/-- A TCP instance one byte before the end of the body, the byte waiting in the stream. -/
def tcpLast : Engine :=
  { tcpFull with buf := [0x03, 0x00, 0x00, 0x00], input := [.byte 0x0A] }

/-- An RTU instance with a complete frame, the gap waiting in the stream. -/
def rtuLast : Engine := { rtuFull with input := [.gap] }

/-- ErrorsTouchNeitherOtherSessionsNorTheStore and SessionsShareNothingButTheStore: two sessions, one of
them at the `Eos` that makes a FrameError. -/
theorem witness_ErrorsTouchNeitherOtherSessionsNorTheStore :
    ∃ (s t : State) (F : Engine), stepEvent (.consume 0) s = .next t ∧ t.engines[0]? = some F ∧
      (∀ p, F.txPending = some p → p.status ≠ 0x0001) ∧ F.sess = .closed ∧ (1 : Nat) ≠ 0 ∧
      s.engines[1]? = some tcpLast :=
  ⟨{ State.boot wide with engines := [{ tcpLast with input := [.eos] }, tcpLast] }, _, _, rfl, rfl,
    nofun, rfl, by decide, rfl⟩

/-- EveryInstructionCompletesOnACompleteFrame, ResponsesEchoTheirRequest and ResponseFramesFitTheirLimit: an
instance with nothing pending takes a request. -/
theorem witness_ResponsesEchoTheirRequest :
    (alone tcpFull).engine? = some tcpFull ∧ tcpFull.envelope = some (.tcp 1 1) ∧
    tcpFull.txPending = none ∧ tcpFull.mode = .tcp ∧
    (alone rtuFull).engine? = some rtuFull ∧ rtuFull.txPending = none ∧ rtuFull.mode = .rtu ∧
    (∃ (t : State) (F : Engine) (p : TxPending),
      exec (.unsupportedBit7 0x83 []) (alone tcpFull) = .next t ∧ t.engine? = some F ∧
      F.txPending = some p) ∧
    (∃ (t : State) (F : Engine) (p : TxPending),
      exec (.unsupportedDefault 0x07 []) (alone rtuFull) = .next t ∧ t.engine? = some F ∧
      F.txPending = some p) :=
  ⟨by decide, by decide, rfl, rfl, by decide, rfl, rfl, ⟨_, _, _, rfl, rfl, rfl⟩,
    ⟨_, _, _, rfl, rfl, rfl⟩⟩

/-- ResponseFrameLayout: the largest PDU the length field holds. -/
theorem witness_ResponseFrameLayout : (List.replicate 65534 (0xFF : Byte)).length < 65535 :=
  lt_of_eq_of_lt List.length_replicate (by decide)

/-- A TCP instance whose response waits for EMIT. -/
def tcpPending : Engine :=
  { Engine.create .tcp with
    hdr := some { tid := 1, pid := 0, len := 6, uid := 1 },
    txPending := some { frame := [0x00, 0x01, 0x00, 0x00, 0x00, 0x03, 0x01, 0x83, 0x02], status := 0x0202 },
    input := [.byte 0x00] }

/-- EmitSendsTheFrameOrClosesTheSession, both outcomes. -/
theorem witness_EmitSendsTheFrameOrClosesTheSession :
    ∃ s u : State, s.engines[0]? = some tcpPending ∧ tcpPending.sess = .opened ∧
      tcpPending.txPending ≠ none ∧ s.schedule = [.emit 0 true] ∧
      u.engines[0]? = some tcpPending ∧ u.schedule = [.emit 0 false] :=
  ⟨{ alone tcpPending with schedule := [.emit 0 true] },
    { alone tcpPending with schedule := [.emit 0 false] }, rfl, rfl, by decide, rfl, rfl, rfl⟩

/-- NoItemIsConsumedWhileAResponseIsPending, each reason. -/
theorem witness_NoItemIsConsumedWhileAResponseIsPending :
    ∃ s : State, s.schedule = [.consume 0] ∧ s.engines[0]? = some tcpPending ∧
      tcpPending.txPending ≠ none ∧ ({ tcpLast with sess := .closed } : Engine).sess = .closed ∧
      tcpFull.input = [] :=
  ⟨{ alone tcpPending with schedule := [.consume 0] }, rfl, rfl, by decide, rfl, rfl⟩

/-- AbortClosesEverySessionAndKeepsTheStore: an OPEN and a CLOSED session. -/
theorem witness_AbortClosesEverySessionAndKeepsTheStore :
    ∃ s : State, s.schedule = [.abort] ∧ s.engines[0]? = some tcpPending ∧ tcpPending.sess = .opened ∧
      s.engines[1]? = some ({ tcpFull with sess := .closed } : Engine) :=
  ⟨{ State.boot wide with
      engines := [tcpPending, { tcpFull with sess := .closed }], schedule := [.abort] },
    rfl, rfl, rfl, rfl⟩

/-- ClosedSessionsNeverChange: a CLOSED session is fed an item. -/
theorem witness_ClosedSessionsNeverChange :
    ∃ (s t : State) (E : Engine), step s = .next t ∧
      (∀ p, s.schedule.head? ≠ some (.restart p)) ∧ s.engines[0]? = some E ∧ E.sess = .closed :=
  ⟨{ alone { tcpFull with sess := .closed } with schedule := [.feed 0 .eos] }, _, _, rfl,
    nofun, rfl, rfl⟩

/-- TheWireNeverWritesInputTables: a request executes, and an event that is no `consume`. -/
theorem witness_TheWireNeverWritesInputTables :
    (wireEvent (.consume 0) = true ∧
      ∃ t, step { alone tcpLast with schedule := [.consume 0] } = .next t) ∧
    (wireEvent .connect = true ∧ (∀ k, Event.connect ≠ .consume k) ∧
      ∃ t, step { alone tcpLast with schedule := [.connect] } = .next t) :=
  ⟨⟨rfl, next_of_goesOn (by decide +kernel)⟩, rfl, fun _ h => (by cases h), next_of_goesOn (by decide +kernel)⟩

/-- A TCP instance with six header bytes (T7's header), the seventh waiting. -/
def tcpHeader (pid len : Byte) : Engine :=
  { Engine.create .tcp with buf := [0x00, 0x01, 0x00, pid, 0x00, len], input := [.byte 0x01] }

/-- TcpHeaderByteCollectsThenValidates: the first byte, and the seventh of an accepted header at both
limits and of a rejected one on each side. -/
theorem witness_TcpHeaderByteCollectsThenValidates :
    (∃ s : State, s.schedule = [.consume 0] ∧
      Receiving s 0 { Engine.create .tcp with input := [.byte 0x00] } (.byte 0x00) [] ∧
      (Engine.create .tcp).mode = .tcp ∧ (Engine.create .tcp).phase = .tcpHdr ∧
      (Engine.create .tcp).buf.length ≠ 6) ∧
    (∃ s : State, s.schedule = [.consume 0] ∧ Receiving s 0 (tcpHeader 0 254) (.byte 0x01) [] ∧
      (tcpHeader 0 254).mode = .tcp ∧ (tcpHeader 0 254).phase = .tcpHdr ∧
      (tcpHeader 0 254).buf = [0x00, 0x01, 0x00, 0x00, 0x00, 254]) ∧
    ((0x00#8 ++ 0x00#8 : Word) = 0x0000#16 ∧ 2 ≤ (0x00#8 ++ 0x02#8 : Word).toNat ∧
      (0x00#8 ++ 0xFE#8 : Word).toNat ≤ 254) ∧
    ¬(2 ≤ (0x00#8 ++ 0x01#8 : Word).toNat) ∧ ¬((0x00#8 ++ 0xFF#8 : Word).toNat ≤ 254) ∧
    (0x00#8 ++ 0x01#8 : Word) ≠ 0x0000#16 :=
  ⟨⟨{ alone { Engine.create .tcp with input := [.byte 0x00] } with schedule := [.consume 0] }, rfl,
      by decide, rfl, rfl, by decide⟩,
    ⟨{ alone (tcpHeader 0 254) with schedule := [.consume 0] }, rfl, by decide, rfl, rfl, rfl⟩,
    by decide⟩

/-- TcpEndOfStreamClosesTheSession: at a boundary, mid-header, mid-body. -/
theorem witness_TcpEndOfStreamClosesTheSession :
    (∃ s : State, s.schedule = [.consume 0] ∧
      Receiving s 0 { Engine.create .tcp with input := [.eos] } .eos [] ∧
      (Engine.create .tcp).phase = .tcpHdr ∧ (Engine.create .tcp).buf = []) ∧
    (∃ s : State, s.schedule = [.consume 0] ∧
      Receiving s 0 { tcpHeader 0 6 with input := [.eos] } .eos [] ∧
      (tcpHeader 0 6).phase = .tcpHdr ∧ (tcpHeader 0 6).buf ≠ []) ∧
    (∃ s : State, s.schedule = [.consume 0] ∧
      Receiving s 0 { tcpLast with input := [.eos] } .eos [] ∧ tcpLast.phase = .tcpBody) :=
  ⟨⟨{ alone { Engine.create .tcp with input := [.eos] } with schedule := [.consume 0] }, rfl, by decide,
      rfl, rfl⟩,
    ⟨{ alone { tcpHeader 0 6 with input := [.eos] } with schedule := [.consume 0] }, rfl, by decide, rfl,
      by decide⟩,
    ⟨{ alone { tcpLast with input := [.eos] } with schedule := [.consume 0] }, rfl, by decide, rfl⟩⟩

/-- An RTU instance with `n` bytes buffered and one item waiting. -/
def rtuWith (phase : Phase) (n : Nat) (item : Item) : Engine :=
  { Engine.create .rtu with phase := phase, buf := List.replicate n 0x00, input := [item] }

/-- `rtuWith` receives its item. -/
theorem witness_rtuReceiving (phase : Phase) (n : Nat) (item : Item) :
    ({ alone (rtuWith phase n item) with schedule := [.consume 0] } : State).schedule = [.consume 0] ∧
    Receiving { alone (rtuWith phase n item) with schedule := [.consume 0] } 0 (rtuWith phase n item)
      item [] ∧
    (rtuWith phase n item).mode = .rtu ∧ (rtuWith phase n item).phase = phase ∧
    (rtuWith phase n item).buf.length = n :=
  ⟨rfl, ⟨rfl, rfl, rfl, rfl⟩, rfl, rfl, List.length_replicate⟩

/-- RtuByteIsBufferedUpToTheFrameLimit: the 256th byte, the 257th, and one in RTU_DISCARD. -/
theorem witness_RtuByteIsBufferedUpToTheFrameLimit :
    (rtuWith .rtuRecv 255 (.byte 1)).buf.length < 256 ∧
    256 ≤ (rtuWith .rtuRecv 256 (.byte 1)).buf.length ∧
    (rtuWith .rtuDiscard 0 (.byte 1)).phase = .rtuDiscard :=
  ⟨lt_of_eq_of_lt List.length_replicate (by decide), List.length_replicate.ge, rfl⟩

/-- RtuGapDropsBadFramesSilently: nothing, 1 and 3 bytes, a discarded frame, four bytes with a bad CRC. -/
theorem witness_RtuGapDropsBadFramesSilently :
    (rtuWith .rtuRecv 0 .gap).buf = [] ∧
    ((rtuWith .rtuRecv 1 .gap).buf ≠ [] ∧ (rtuWith .rtuRecv 3 .gap).buf.length < 4) ∧
    (rtuWith .rtuDiscard 0 .gap).phase = .rtuDiscard ∧
    (4 ≤ (rtuWith .rtuRecv 4 .gap).buf.length ∧ crc16 (rtuWith .rtuRecv 4 .gap).buf ≠ 0x0000) := by
  decide +kernel

/-- RtuEndOfStreamDiscardsAndCloses: in each phase. -/
theorem witness_RtuEndOfStreamDiscardsAndCloses :
    (rtuWith .rtuRecv 3 .eos).phase = .rtuRecv ∧ (rtuWith .rtuDiscard 0 .eos).phase = .rtuDiscard :=
  ⟨rfl, rfl⟩

/-- StepRunsTheDecodedRequest: the last body byte, and the gap. -/
theorem witness_StepRunsTheDecodedRequest :
    (∃ (s : State) (h : MbapHdr), s.schedule = [.consume 0] ∧ Receiving s 0 tcpLast (.byte 0x0A) [] ∧
      tcpLast.mode = .tcp ∧ tcpLast.phase = .tcpBody ∧ tcpLast.hdr = some h ∧
      tcpLast.buf.length + 1 = h.len.toNat - 1 ∧
      decode (tcpLast.buf ++ [0x0A]) = .ok (.readHoldingRegisters 0 10)) ∧
    (∃ s : State, s.schedule = [.consume 0] ∧ Receiving s 0 rtuLast .gap [] ∧ rtuLast.mode = .rtu ∧
      rtuLast.phase = .rtuRecv ∧ 4 ≤ rtuLast.buf.length ∧ crc16 rtuLast.buf = 0x0000 ∧
      decode (rtuPdu rtuLast.buf) = .ok (.readHoldingRegisters 0 10)) :=
  ⟨⟨{ alone tcpLast with schedule := [.consume 0] }, _, rfl, by decide, rfl, rfl, rfl, by decide,
      by decide⟩,
    ⟨{ alone rtuLast with schedule := [.consume 0] }, rfl, by decide +kernel, rfl, rfl, by decide +kernel, by decide +kernel,
      by decide⟩⟩

/-- HeaderReadFaultsExactlyBeforeItsFirstLoad: a TCP instance in TCP_BODY, a byte waiting, without and with
a header latched. -/
theorem witness_HeaderReadFaultsExactlyBeforeItsFirstLoad :
    (∃ s : State, s.schedule = [.consume 0] ∧ s.engine? = some { tcpLast with hdr := none } ∧
      Receiving s 0 { tcpLast with hdr := none } (.byte 0x0A) [] ∧ tcpLast.mode = .tcp ∧
      tcpLast.phase = .tcpBody) ∧
    (∃ s : State, s.schedule = [.consume 0] ∧ s.engine? = some tcpLast ∧
      Receiving s 0 tcpLast (.byte 0x0A) [] ∧ tcpLast.hdr ≠ none) :=
  ⟨⟨{ alone { tcpLast with hdr := none } with schedule := [.consume 0] }, rfl, rfl, by decide, rfl, rfl⟩,
    ⟨{ alone tcpLast with schedule := [.consume 0] }, rfl, rfl, by decide, by decide⟩⟩

/-- StepTakesTheCodecExceptionOrWaits: a body byte that is not the last; the other clauses are met as in
StepRunsTheDecodedRequest. -/
theorem witness_StepTakesTheCodecExceptionOrWaits :
    ∃ (s : State) (h : MbapHdr), s.schedule = [.consume 0] ∧
      Receiving s 0 { tcpLast with buf := [] } (.byte 0x0A) [] ∧ tcpLast.mode = .tcp ∧
      tcpLast.phase = .tcpBody ∧ tcpLast.hdr = some h ∧
      ({ tcpLast with buf := [] } : Engine).buf.length + 1 ≠ h.len.toNat - 1 :=
  ⟨{ alone { tcpLast with buf := [] } with schedule := [.consume 0] }, _, rfl, by decide, rfl, rfl, rfl,
    by decide⟩

/-- FetchWordRunsTheTableInstruction: the shortest instruction, and one of 252 bytes. -/
theorem witness_FetchWordRunsTheTableInstruction :
    ((tablePdu 8 0x07).length ≤ 253 ∧ decodeTableWord 8 0x07 = some (.unsupportedDefault 0x07 [])) ∧
    ((tablePdu 48 0xF6B00700000F).length ≤ 253 ∧
      (decodeTableWord 48 0xF6B00700000F).isSome = true) := by
  decide +kernel

/-- The largest PDU, 253 bytes (V4). -/
def longest : List Byte := [0x0F, 0x00, 0x00, 0x07, 0xB1, 0xF7] ++ List.replicate 247 0x00

/-- It is a request: FC15 with qty 1969. -/
theorem longest_decodes :
    longest.length = 253 ∧
      decode longest = .ok (.writeMultipleCoils 0 1969 247 (List.replicate 247 0x00)) := by
  decide +kernel

/-- TcpFrameBytesLeadToItsRequest: a new instance with the frame in its stream; PDUs of 1 and 253 bytes. -/
theorem witness_TcpFrameBytesLeadToItsRequest :
    (∀ pdu : List Byte, ∃ (s : State) (E : Engine), s.engines[0]? = some E ∧ E.sess = .opened ∧
      E.txPending = none ∧ E.mode = .tcp ∧ E.phase = .tcpHdr ∧ E.buf = [] ∧
      E.input = (encodeTcp 1 1 pdu).map Item.byte ++ [] ∧
      s.schedule = List.replicate (7 + pdu.length) (.consume 0) ++ []) ∧
    (1 ≤ ([0x07] : List Byte).length ∧ ([0x07] : List Byte).length ≤ 253 ∧
      decode [0x07] = .ok (.unsupportedDefault 0x07 [])) ∧
    (1 ≤ longest.length ∧ longest.length ≤ 253 ∧
      decode longest = .ok (.writeMultipleCoils 0 1969 247 (List.replicate 247 0x00))) :=
  ⟨fun pdu => ⟨{ alone { Engine.create .tcp with input := (encodeTcp 1 1 pdu).map Item.byte ++ [] } with
      schedule := List.replicate (7 + pdu.length) (.consume 0) ++ [] }, _, rfl, rfl, rfl, rfl, rfl, rfl,
      rfl, rfl⟩,
    by decide, by rw [longest_decodes.1]; decide, longest_decodes.1.le, longest_decodes.2⟩

/-- RtuFrameBytesLeadToItsRequest: the same on RTU, the gap behind the frame. -/
theorem witness_RtuFrameBytesLeadToItsRequest :
    (∀ pdu : List Byte, ∃ (s : State) (E : Engine), s.engines[0]? = some E ∧ E.sess = .opened ∧
      E.txPending = none ∧ E.mode = .rtu ∧ E.phase = .rtuRecv ∧ E.buf = [] ∧ E.crc = 0xFFFF ∧
      E.input = (encodeRtu 1 pdu).map Item.byte ++ .gap :: [] ∧
      s.schedule = List.replicate (pdu.length + 4) (.consume 0) ++ []) ∧
    (1 ≤ ([0x07] : List Byte).length ∧ ([0x07] : List Byte).length ≤ 253 ∧
      decode [0x07] = .ok (.unsupportedDefault 0x07 [])) ∧
    (1 ≤ longest.length ∧ longest.length ≤ 253 ∧
      decode longest = .ok (.writeMultipleCoils 0 1969 247 (List.replicate 247 0x00))) :=
  ⟨fun pdu => ⟨{ alone { Engine.create .rtu with
        input := (encodeRtu 1 pdu).map Item.byte ++ .gap :: [] } with
      schedule := List.replicate (pdu.length + 4) (.consume 0) ++ [] }, _, rfl, rfl, rfl, rfl, rfl, rfl,
      rfl, rfl, rfl⟩,
    by decide, by rw [longest_decodes.1]; decide, longest_decodes.1.le, longest_decodes.2⟩

/-- SessionsShareNothingButTheStore: a step of session 0 beside session 1, and the same step in a state
whose other session differs. -/
theorem witness_SessionsShareNothingButTheStore :
    ∃ s₁ s₂ t₁ : State, s₁.cfg = s₂.cfg ∧ s₁.preset = s₂.preset ∧ s₁.store = s₂.store ∧
      s₁.engines[0]? = s₂.engines[0]? ∧ s₁.engines ≠ s₂.engines ∧ (1 : Nat) ≠ 0 ∧
      stepEvent (.consume 0) s₁ = .next t₁ :=
  ⟨{ State.boot wide with engines := [{ tcpLast with input := [.eos] }, tcpLast] },
    { State.boot wide with engines := [{ tcpLast with input := [.eos] }, tcpPending] }, _, rfl, rfl, rfl,
    rfl, by decide, by decide, rfl⟩

/-- ResetSatisfiesTheInvariant: the default preset. -/
theorem witness_ResetSatisfiesTheInvariant : Params.default.preset.addressable := by decide

/-- StepKeepsTheInvariant and InvariantStatesNeverFault: a state in the middle of a frame, whose next step
executes the request. -/
theorem witness_StepKeepsTheInvariant :
    ({ State.reset with engines := [tcpLast], schedule := [.consume 0] } : State).Inv ∧
    ∃ t, step { State.reset with engines := [tcpLast], schedule := [.consume 0] } = .next t := by
  refine ⟨⟨by decide, by decide, ?_, by decide, nofun, nofun⟩, next_of_goesOn (by decide)⟩
  intro E hE
  rw [List.mem_singleton.mp hE]
  refine ⟨rfl, by decide, ⟨by decide, fun _ => ⟨_, rfl, by decide, by decide⟩, by decide, by decide⟩,
    nofun, ?_, by decide, by decide⟩
  exact ⟨nofun, fun h => absurd rfl h⟩

end Sys2Proof.Tests
end

section
/-! PROOF. The fields of the status word (spec/10_state.md R29). -/

namespace Sys2Proof.Machine

theorem statusKind_statusWord (k : Kind) (e : Byte) : statusKind (statusWord k e) = kindCode k := by
  rw [statusKind, statusWord, BitVec.extractLsb'_append_eq_of_add_le (by decide)]
  exact BitVec.extractLsb'_append_eq_right

theorem statusReserved_statusWord (k : Kind) (e : Byte) : statusReserved (statusWord k e) = 0 := by
  rw [statusReserved, statusWord, BitVec.extractLsb'_append_eq_of_add_le (by decide)]
  exact BitVec.extractLsb'_append_eq_left

theorem statusExc_statusWord (k : Kind) (e : Byte) : statusExc (statusWord k e) = e :=
  BitVec.extractLsb'_append_eq_left

/-- Settles O37: each field is one half of an append. -/
theorem statusWordFields : Obligations.StatusWordFields := by
  unfold Obligations.StatusWordFields
  exact fun k e =>
    ⟨statusKind_statusWord k e, statusReserved_statusWord k e, statusExc_statusWord k e⟩

end Sys2Proof.Machine
end

section
/-! PROOF. Where EXEC and the item rules go on and where they fault (spec/10_state.md R36). -/

namespace Sys2Proof.Machine

/-! ### EXEC -/

/-- EXEC of a complete frame always answers a next state. -/
theorem request_goesOn {fc : Byte} {perform : State → Except WireExc (State × List Byte)} {s : State}
    {E : Engine} {env : Envelope} (hE : s.engine? = some E) (henv : E.envelope = some env) :
    ∃ t, request fc perform s = .next t := by
  cases hu : unitAccepted s.cfg env.uid with
  | true =>
    cases hp : perform s with
    | ok res => exact ⟨_, request_ok ⟨hE, henv, hu⟩ hp⟩
    | error e => exact ⟨_, request_error ⟨hE, henv, hu⟩ hp⟩
  | false =>
    cases hm : E.mode with
    | tcp => exact ⟨_, request_filtered_tcp hE henv hu hm⟩
    | rtu => exact ⟨_, request_filtered_rtu hE henv hu hm⟩

theorem request_noEnvelope {fc : Byte} {perform : State → Except WireExc (State × List Byte)}
    {s : State} {E : Engine} (hE : s.engine? = some E) (henv : E.envelope = none) :
    request fc perform s = .fault (noEnvelopeFault E.mode) := by
  simp only [request, hE, henv]

theorem execPdu_goesOn {p : List Byte} {s : State} {E : Engine} {env : Envelope}
    (hE : s.engine? = some E) (henv : E.envelope = some env) : ∃ t, execPdu p s = .next t := by
  obtain ⟨perform, hp, -⟩ := execPdu_eq_request p s
  rw [hp]
  exact request_goesOn hE henv

theorem envelope_tcp {E : Engine} (hm : E.mode = .tcp) :
    E.envelope = E.hdr.map fun h => .tcp h.tid h.uid := by
  simp only [Engine.envelope, hm]

theorem envelope_rtu {E : Engine} (hm : E.mode = .rtu) :
    E.envelope = E.buf.head?.map fun uid => .rtu uid := by
  simp only [Engine.envelope, hm]

/-! ### The item rules -/

/-- A body byte is buffered or completes the PDU; either way a latched header lets the rule go on. -/
theorem tcpBodyByte_goesOn {E : Engine} {s : State} (b : Byte) (hs : s.cur < s.engines.length)
    (hm : E.mode = .tcp) (hh : E.hdr ≠ none) : ∃ t, tcpBodyByte E b s = .next t := by
  unfold tcpBodyByte
  split
  · exact absurd ‹E.hdr = none› hh
  · rename_i h hh
    dsimp only
    split
    · have henv : Engine.envelope { E with buf := E.buf ++ [b] } = some (.tcp h.tid h.uid) := by
        rw [envelope_tcp (by exact hm)]
        simp [hh]
      exact execPdu_goesOn (setEngine_engine? _ s hs) henv
    · exact ⟨_, rfl⟩

theorem tcpBodyByte_unloaded {E : Engine} (b : Byte) (s : State) (hh : E.hdr = none) :
    tcpBodyByte E b s = .fault .hdrUnloaded := by
  simp only [tcpBodyByte, hh]

/-- A TCP item rule faults only in a phase of RTU, or in TCP_BODY with no header latched. -/
theorem tcpItem_not_fault {E : Engine} {item : Item} {s : State} {f : Fault}
    (hs : s.cur < s.engines.length) (hm : E.mode = .tcp)
    (hp : E.phase = .tcpHdr ∨ E.phase = .tcpBody) (hb : E.phase = .tcpBody → E.hdr ≠ none) :
    tcpItem E item s ≠ .fault f := by
  obtain hp | hp := hp
  · cases item <;> simp [tcpItem, hp]
  · cases item with
    | byte b =>
      obtain ⟨t, ht⟩ := tcpBodyByte_goesOn b hs hm (hb hp)
      simp [tcpItem, hp, ht]
    | gap => simp [tcpItem]
    | eos => simp [tcpItem, hp]

theorem rtuGap_not_fault {E : Engine} {s : State} {f : Fault} (hs : s.cur < s.engines.length)
    (hm : E.mode = .rtu) : rtuGap E s ≠ .fault f := by
  unfold rtuGap
  split
  · nofun
  · rename_i h0
    obtain ⟨uid, hu⟩ : ∃ uid, E.buf.head? = some uid :=
      Option.ne_none_iff_exists'.mp (by simpa using h0)
    have henv : E.envelope = some (.rtu uid) := by rw [envelope_rtu hm, hu]; rfl
    obtain ⟨t, ht⟩ := execPdu_goesOn (p := rtuPdu E.buf) (setEngine_engine? E s hs) henv
    split
    · nofun
    · split
      · rw [ht]; nofun
      · nofun

/-- An RTU item rule faults only in a phase of TCP: a frame that passes the CRC check has a unit id. -/
theorem rtuItem_not_fault {E : Engine} {item : Item} {s : State} {f : Fault}
    (hs : s.cur < s.engines.length) (hm : E.mode = .rtu)
    (hp : E.phase = .rtuRecv ∨ E.phase = .rtuDiscard) : rtuItem E item s ≠ .fault f := by
  obtain hp | hp := hp
  · cases item with
    | byte b => simp [rtuItem, hp]
    | gap => simpa [rtuItem, hp] using rtuGap_not_fault hs hm
    | eos => simp [rtuItem, hp]
  · cases item <;> simp [rtuItem, hp]

/-! ### The step -/

/-- Only an item rule faults: every other event of the schedule goes on or is refused. -/
theorem stepEvent_fault {e : Event} {s : State} {f : Fault} (h : stepEvent e s = .fault f) :
    ∃ k E item more, e = .consume k ∧ Receiving s k E item more ∧
      itemRule { E with input := more } item { s with cur := k } = .fault f := by
  cases e
  case consume k =>
    change consume k s = .fault f at h
    obtain hc | hc | ⟨E, item, more, hr, hc⟩ := consume_cases k s <;> rw [hc] at h
    · cases h
    · cases h
    · exact ⟨k, E, item, more, rfl, hr, h⟩
  case abort => cases h
  case reconfigure => cases h
  case connect | feed | emit | hostWriteBits | hostWriteWords | restart =>
    simp only [stepEvent, connect, feed, emit, hostWriteBits, hostWriteWords, restart] at h
    repeat' split at h
    all_goals cases h

/-- The step at a body byte of a TCP session is the rule R153. -/
theorem step_tcpBodyByte {s : State} {k : Nat} {E : Engine} {b : Byte} {more : List Item}
    {rest : List Event} (hs : s.schedule = .consume k :: rest) (hr : Receiving s k E (.byte b) more)
    (hm : E.mode = .tcp) (hp : E.phase = .tcpBody) :
    step s = tcpBodyByte { E with input := more } b { s with cur := k, schedule := rest } := by
  have hc : consume k { s with schedule := rest } = _ := consume_receiving hr
  rw [step_event hs, stepEvent, hc]
  simp only [itemRule, hm, tcpItem, hp]

/-- Settles O58: EXEC is the request step, whose envelope on TCP is the latch; a body byte's rule reads
the latch itself. -/
theorem headerReadFaultsExactlyBeforeItsFirstLoad :
    Obligations.HeaderReadFaultsExactlyBeforeItsFirstLoad := by
  unfold Obligations.HeaderReadFaultsExactlyBeforeItsFirstLoad
  refine ⟨fun i s E hE hm => ⟨fun hh => ?_, fun hh => ?_⟩,
    fun s k E b more rest hs hr hm hp => ⟨fun hh => ?_, fun hh => ?_⟩⟩
  · rw [exec_eq_request, request_noEnvelope hE (by rw [envelope_tcp hm, hh]; rfl), hm]
    rfl
  · obtain ⟨h, hh⟩ := Option.ne_none_iff_exists'.mp hh
    rw [exec_eq_request]
    exact request_goesOn hE (by rw [envelope_tcp hm, hh]; rfl)
  · rw [step_tcpBodyByte hs hr hm hp]
    exact tcpBodyByte_unloaded b _ hh
  · rw [step_tcpBodyByte hs hr hm hp]
    exact tcpBodyByte_goesOn b (List.getElem?_eq_some_iff.mp hr.1).1 hm hh

/-- Settles O56: only an item rule can fault, and the invariant gives it a phase of its mode and, in
TCP_BODY, a latched header. -/
theorem invariantStatesNeverFault : Obligations.InvariantStatesNeverFault := by
  unfold Obligations.InvariantStatesNeverFault
  intro s f hI h
  cases hs : s.schedule with
  | nil => rw [step_idle hs] at h; cases h
  | cons e rest =>
    rw [step_event hs] at h
    obtain ⟨k, E, item, more, -, ⟨hE, -⟩, hf⟩ := stepEvent_fault h
    obtain ⟨-, -, hEngines, -⟩ := hI
    obtain ⟨-, ⟨hTcp, hRtu⟩, ⟨-, hBody, -⟩, -⟩ := hEngines E (List.mem_of_getElem? hE)
    have hk : k < s.engines.length := (List.getElem?_eq_some_iff.mp hE).1
    have hlatch : E.phase = .tcpBody → E.hdr ≠ none := by
      intro hp hh
      obtain ⟨hd, hd_mem, -⟩ := hBody hp
      rw [hh] at hd_mem
      cases hd_mem
    unfold itemRule at hf
    split at hf
    · rename_i hm
      exact tcpItem_not_fault hk hm (hTcp hm) hlatch hf
    · rename_i hm
      exact rtuItem_not_fault hk hm (hRtu hm) hf

end Sys2Proof.Machine
end

section
/-! PROOF. What every rule keeps of one session: `Engine.Inv` under each operation on its registers. -/

namespace Sys2Proof.Machine

variable {E : Engine} {mode : Transport}

theorem responseStatuses_subset_openStatuses : responseStatuses ⊆ openStatuses := by decide

theorem respOk_mem_responseStatuses : plainStatus .respOk ∈ responseStatuses := by decide

theorem excStatus_mem_responseStatuses (e : WireExc) : excStatus (excCode e) ∈ responseStatuses := by
  cases e <;> decide

/-- CRC-16 takes its bytes one by one, so the register follows the buffer (spec/42_rtu_crc.md R189). -/
theorem crc16_append_singleton (x : List Byte) (b : Byte) :
    crc16 (x ++ [b]) = crcUpdate (crc16 x) b := by
  simp [crc16]

theorem bodyFits_zero {n : Nat} {hdr : Option MbapHdr} (h : bodyFits n hdr) : bodyFits 0 hdr := by
  obtain ⟨hd, hmem, hv, hn⟩ := h
  exact ⟨hd, hmem, hv, by omega⟩

/-- A header that passes validation leaves at least one byte of a PDU to come. -/
theorem bodyFits_of_headerValid {hd : MbapHdr} (hv : headerValid hd = true) : bodyFits 0 (some hd) := by
  refine ⟨hd, rfl, hv, ?_⟩
  simp only [headerValid, Bool.and_eq_true, bne_iff_ne, ne_eq] at hv
  obtain ⟨⟨⟨-, h0⟩, h1⟩, -⟩ := hv
  bv_omega

/-! ### One register or stream -/

theorem Engine.Inv.setInput (h : E.Inv mode) {input : List Item} (hi : E.mode = .tcp → .gap ∉ input) :
    Engine.Inv mode { E with input := input } := by
  obtain ⟨hMode, hPhase, hBuf, hRtu, hTx, hStatus, -⟩ := h
  exact ⟨hMode, hPhase, hBuf, hRtu, hTx, hStatus, hi⟩

theorem Engine.Inv.setStatus (h : E.Inv mode) (ho : E.sess = .opened) {st : Word}
    (hst : st ∈ openStatuses) : Engine.Inv mode { E with status := st } := by
  obtain ⟨hMode, hPhase, hBuf, hRtu, hTx, -, hInput⟩ := h
  exact ⟨hMode, hPhase, hBuf, hRtu, hTx, ⟨fun _ => hst, by simp [ho]⟩, hInput⟩

theorem Engine.Inv.dropTx (h : E.Inv mode) : Engine.Inv mode { E with txPending := none } := by
  obtain ⟨hMode, hPhase, hBuf, hRtu, -, hStatus, hInput⟩ := h
  exact ⟨hMode, hPhase, hBuf, hRtu, ⟨nofun, fun h => absurd rfl h⟩, hStatus, hInput⟩

theorem Engine.Inv.clearBuf (h : E.Inv mode) : Engine.Inv mode E.clearBuf := by
  obtain ⟨hMode, hPhase, ⟨-, hBody, -, -⟩, hRtu, hTx, hStatus, hInput⟩ := h
  refine ⟨hMode, hPhase, ⟨by simp, fun hp => bodyFits_zero (hBody hp), by simp, by simp⟩,
    fun hm => ⟨rfl, (hRtu hm).2⟩, ?_, hStatus, hInput⟩
  exact ⟨hTx.1, fun ht => ⟨(hTx.2 ht).1, rfl, (hTx.2 ht).2.2⟩⟩

/-- A header may be latched while it is collected: the phase is one of TCP, where the latch exists. -/
theorem Engine.Inv.latch (h : E.Inv mode) (hp : E.phase = .tcpHdr) (hd : MbapHdr) :
    Engine.Inv mode { E with hdr := some hd } := by
  obtain ⟨hMode, hPhase, ⟨hHdr, -, -, -⟩, -, hTx, hStatus, hInput⟩ := h
  have hm : E.mode ≠ .rtu := fun hm => by simpa [hp] using hPhase.2 hm
  exact ⟨hMode, hPhase, ⟨hHdr, by simp [hp], by simp [hp], by simp [hp]⟩, fun h => absurd h hm, hTx,
    hStatus, hInput⟩

/-! ### The operations of Ops.lean -/

theorem Engine.Inv.create (mode : Transport) : Engine.Inv mode (Engine.create mode) := by
  cases mode <;>
    exact ⟨rfl, by decide, ⟨by decide, by simp [Engine.create, startPhase], by decide, by decide⟩,
      by decide, ⟨nofun, by decide⟩, by decide, by decide⟩

theorem Engine.Inv.nextFrame (h : E.Inv mode) : Engine.Inv mode E.nextFrame := by
  obtain ⟨hMode, -, -, hRtu, hTx, hStatus, hInput⟩ := h
  refine ⟨hMode, ?_, ?_, fun hm => ⟨rfl, (hRtu hm).2⟩, ?_, hStatus, hInput⟩
  · exact ⟨fun hm => .inl (by simp [show E.mode = .tcp from hm, startPhase]),
      fun hm => .inl (by simp [show E.mode = .rtu from hm, startPhase])⟩
  · refine ⟨by simp, fun hp => ?_, by simp, by simp⟩
    cases hm : E.mode <;> simp [hm, startPhase] at hp
  · exact ⟨hTx.1, fun ht => ⟨(hTx.2 ht).1, rfl, rfl⟩⟩

theorem Engine.Inv.drop (h : E.Inv mode) (ho : E.sess = .opened) {k : Kind}
    (hk : plainStatus k ∈ openStatuses) : Engine.Inv mode (E.drop k) :=
  h.nextFrame.setStatus ho hk

theorem Engine.Inv.close (h : E.Inv mode) (ht : E.txPending = none) {k : Kind}
    (hk : plainStatus k ∈ closedStatuses) : Engine.Inv mode (E.close k) := by
  obtain ⟨hMode, hPhase, hBuf, hRtu, hTx, -, hInput⟩ := h
  exact ⟨hMode, hPhase, hBuf, hRtu, ⟨hTx.1, fun h => absurd ht h⟩, ⟨nofun, fun _ => hk⟩, hInput⟩

theorem Engine.Inv.frameError (h : E.Inv mode) (ht : E.txPending = none) :
    Engine.Inv mode E.frameError :=
  h.clearBuf.close ht (by decide)

theorem Engine.Inv.rtuEos (h : E.Inv mode) (ht : E.txPending = none) : Engine.Inv mode E.rtuEos :=
  h.clearBuf.close ht (by decide)

theorem Engine.Inv.respond (h : E.Inv mode) (ho : E.sess = .opened) (env : Envelope) (r : List Byte)
    {st : Word} (hst : st ∈ responseStatuses) : Engine.Inv mode (E.nextFrame.respond env r st) := by
  obtain ⟨hMode, hPhase, hBuf, hRtu, -, hStatus, hInput⟩ := h.nextFrame
  refine ⟨hMode, hPhase, hBuf, hRtu, ⟨?_, fun _ => ⟨ho, rfl, rfl⟩⟩, hStatus, hInput⟩
  simpa using hst

theorem Engine.Inv.emitAccepted (h : E.Inv mode) (ho : E.sess = .opened) {p : TxPending}
    (hp : E.txPending = some p) : Engine.Inv mode (E.emitAccepted p) := by
  have hst : p.status ∈ responseStatuses := by
    obtain ⟨-, -, -, -, ⟨hTx, -⟩, -⟩ := h
    exact hTx p hp
  exact h.dropTx.setStatus ho (responseStatuses_subset_openStatuses hst)

theorem Engine.Inv.emitFailed (h : E.Inv mode) : Engine.Inv mode E.emitFailed :=
  h.dropTx.close rfl (by decide)

theorem Engine.Inv.aborted (h : E.Inv mode) : Engine.Inv mode E.aborted := by
  cases hs : E.sess with
  | opened => rw [aborted_opened E hs]; exact h.clearBuf.dropTx.close rfl (by decide)
  | closed => rwa [aborted_closed E hs]

/-! ### The item rules -/

/-- The seventh byte latches a header and validates it; any other is collected. -/
theorem Engine.Inv.headerByte (h : E.Inv mode) (ht : E.txPending = none) (hp : E.phase = .tcpHdr)
    (b : Byte) : Engine.Inv mode (E.headerByte b) := by
  have hLatched := (h.latch hp (headerOf (E.buf ++ [b]))).clearBuf
  obtain ⟨hMode, hPhase, ⟨hHdr, -, -, -⟩, -, hTx, hStatus, hInput⟩ := h
  have hm : E.mode ≠ .rtu := fun hm => by simpa [hp] using hPhase.2 hm
  have hlen := hHdr hp
  unfold Engine.headerByte
  dsimp only
  split
  · split
    · rename_i hv
      exact ⟨hMode, ⟨fun _ => .inr rfl, fun h => absurd h hm⟩,
        ⟨nofun, fun _ => bodyFits_of_headerValid hv, nofun, nofun⟩, fun h => absurd h hm,
        ⟨hTx.1, fun h => absurd ht h⟩, hStatus, hInput⟩
    · exact hLatched.close ht (by decide)
  · rename_i h7
    refine ⟨hMode, hPhase, ⟨fun _ => ?_, by simp [hp], by simp [hp], by simp [hp]⟩,
      fun h => absurd h hm, ⟨hTx.1, fun h => absurd ht h⟩, hStatus, hInput⟩
    simp only [List.length_append, List.length_cons, List.length_nil] at h7 ⊢
    omega

/-- A body byte that does not complete the PDU leaves it incomplete. -/
theorem Engine.Inv.bodyByte (h : E.Inv mode) (ht : E.txPending = none) (hp : E.phase = .tcpBody)
    {hd : MbapHdr} (hh : E.hdr = some hd) (b : Byte) (hn : E.buf.length + 1 ≠ hd.len.toNat - 1) :
    Engine.Inv mode { E with buf := E.buf ++ [b] } := by
  obtain ⟨hMode, hPhase, ⟨-, hBody, -, -⟩, -, hTx, hStatus, hInput⟩ := h
  have hm : E.mode ≠ .rtu := fun hm => by simpa [hp] using hPhase.2 hm
  obtain ⟨hd', hmem, hv, hlt⟩ := hBody hp
  obtain rfl : hd = hd' := Option.some.inj (hh.symm.trans hmem)
  refine ⟨hMode, hPhase, ⟨by simp [hp], fun _ => ⟨hd, hmem, hv, ?_⟩, by simp [hp], by simp [hp]⟩,
    fun h => absurd h hm, ⟨hTx.1, fun h => absurd ht h⟩, hStatus, hInput⟩
  simp only [List.length_append, List.length_cons, List.length_nil]
  omega

theorem Engine.Inv.headerEos (h : E.Inv mode) (ht : E.txPending = none) :
    Engine.Inv mode E.headerEos := by
  unfold Engine.headerEos
  split
  · exact h.close ht (by decide)
  · exact h.frameError ht

/-- A byte joins the buffer and the CRC register follows; the 257th discards the frame. -/
theorem Engine.Inv.rtuByte (h : E.Inv mode) (ht : E.txPending = none) (hp : E.phase = .rtuRecv)
    (b : Byte) : Engine.Inv mode (E.rtuByte b) := by
  obtain ⟨hMode, hPhase, -, hRtu, hTx, hStatus, hInput⟩ := h
  have hm : E.mode ≠ .tcp := fun hm => by simpa [hp] using hPhase.1 hm
  unfold Engine.rtuByte
  split
  · rename_i hlt
    refine ⟨hMode, hPhase, ⟨by simp [hp], by simp [hp], fun _ => ?_, by simp [hp]⟩, fun hm => ?_,
      ⟨hTx.1, fun h => absurd ht h⟩, hStatus, hInput⟩
    · simpa [Config.rtuFrameMax] using hlt
    · obtain ⟨hcrc, hhdr⟩ := hRtu hm
      exact ⟨by rw [crc16_append_singleton, hcrc], hhdr⟩
  · exact ⟨hMode, ⟨fun h => absurd h hm, fun _ => .inr rfl⟩, ⟨nofun, nofun, nofun, fun _ => rfl⟩,
      fun hm => ⟨rfl, (hRtu hm).2⟩, ⟨hTx.1, fun h => absurd ht h⟩, hStatus, hInput⟩

end Sys2Proof.Machine
end

section
/-! PROOF. What a step of a session does to the whole state: that session and the store change,
nothing else. -/

namespace Sys2Proof.Machine

/-- `t` is `s` with the current session left as `F` and the store in canonical form if it was;
everything else is as in `s` (spec/20_memory.md R83). -/
def State.MovesTo (s : State) (F : Engine) (t : State) : Prop :=
  ∃ m, t = { s.setEngine F with store := m } ∧
    (Memory.wf s.preset s.store → Memory.wf s.preset m)

/-- `F` meets `Engine.Inv` for every transport for which `E` does. -/
def Engine.KeepsInv (E F : Engine) : Prop := ∀ mode, E.Inv mode → F.Inv mode

/-- A step of session `k` from `s` to `t`: nothing happened, or the session was OPEN and moved. -/
def State.SessionStep (s : State) (k : Nat) (t : State) : Prop :=
  t = s ∨ ∃ E F, s.engines[k]? = some E ∧ E.sess = .opened ∧ E.KeepsInv F ∧
    State.MovesTo { s with cur := k } F t

theorem movesTo_setEngine (s : State) (F : Engine) : s.MovesTo F (s.setEngine F) := ⟨s.store, rfl, id⟩

/-- A first change of the current session is overwritten by the second. -/
theorem movesTo_of_setEngine {s t : State} {E F : Engine} (h : (s.setEngine E).MovesTo F t) :
    s.MovesTo F t := by
  obtain ⟨m, rfl, hm⟩ := h
  exact ⟨m, by simp [State.setEngine], hm⟩

/-- EXEC leaves the session at the start of its next frame, with a response waiting, or, on RTU, with
the frame dropped. -/
theorem execPdu_next {p : List Byte} {s t : State} (h : execPdu p s = .next t) :
    ∃ E F, s.engine? = some E ∧ s.MovesTo F t ∧
      ((∃ env r st, st ∈ responseStatuses ∧ F = E.nextFrame.respond env r st) ∨
        F = E.drop .dropUnit) := by
  obtain ⟨perform, hp, hok⟩ := execPdu_eq_request p s
  rw [hp] at h
  obtain ⟨E, env, hE, -, hcases⟩ := request_next h
  obtain ⟨-, s', r, hperf, rfl⟩ | ⟨-, e, -, rfl⟩ | ⟨-, -, rfl⟩ | ⟨-, -, rfl⟩ := hcases
  · refine ⟨E, E.nextFrame.respond env r (plainStatus .respOk), hE, ?_,
      .inl ⟨env, r, _, respOk_mem_responseStatuses, rfl⟩⟩
    obtain rfl | ⟨a, vs, ha, rfl⟩ | ⟨a, vs, ha, rfl⟩ := hok s' r hperf
    · exact movesTo_setEngine _ _
    · exact ⟨_, rfl, fun hw => memWriteBits_wf .coils a vs hw ha⟩
    · exact ⟨_, rfl, fun hw => memWriteWords_wf .hr a vs hw ha⟩
  · exact ⟨E, _, hE, movesTo_setEngine _ _,
      .inl ⟨env, _, _, excStatus_mem_responseStatuses e, rfl⟩⟩
  · exact ⟨E, _, hE, movesTo_setEngine _ _,
      .inl ⟨env, _, _, excStatus_mem_responseStatuses .illegalFunction, rfl⟩⟩
  · exact ⟨E, _, hE, movesTo_setEngine _ _, .inr rfl⟩

/-- EXEC of an OPEN session with any bytes `x` in its buffer, which EXEC empties: `x` may be a complete
frame, where the invariant allows an incomplete one only. -/
theorem execPdu_keepsInv {p x : List Byte} {E : Engine} {s t : State} (hs : s.cur < s.engines.length)
    (ho : E.sess = .opened) (h : execPdu p (s.setEngine { E with buf := x }) = .next t) :
    ∃ F, s.MovesTo F t ∧ E.KeepsInv F := by
  obtain ⟨E', F, hE', hF, hcases⟩ := execPdu_next h
  rw [setEngine_engine? _ s hs] at hE'
  obtain rfl := Option.some.inj hE'
  refine ⟨F, movesTo_of_setEngine hF, fun mode hI => ?_⟩
  obtain ⟨env, r, st, hst, rfl⟩ | rfl := hcases
  · exact hI.respond ho env r hst
  · exact hI.drop ho (by decide)

theorem tcpItem_keepsInv {E : Engine} {item : Item} {s t : State} (hs : s.cur < s.engines.length)
    (ho : E.sess = .opened) (ht : E.txPending = none) (h : tcpItem E item s = .next t) :
    ∃ F, s.MovesTo F t ∧ E.KeepsInv F := by
  obtain ⟨b, -, hp, rfl⟩ | ⟨b, hd, -, hp, hh, hbody⟩ | ⟨-, -, rfl⟩ | ⟨-, -, rfl⟩ := tcpItem_next h
  · exact ⟨_, movesTo_setEngine _ _, fun _ hI => hI.headerByte ht hp b⟩
  · obtain ⟨-, hexec⟩ | ⟨hn, rfl⟩ := hbody
    · exact execPdu_keepsInv hs ho hexec
    · exact ⟨_, movesTo_setEngine _ _, fun _ hI => hI.bodyByte ht hp hh b hn⟩
  · exact ⟨_, movesTo_setEngine _ _, fun _ hI => hI.headerEos ht⟩
  · exact ⟨_, movesTo_setEngine _ _, fun _ hI => hI.frameError ht⟩

theorem rtuItem_keepsInv {E : Engine} {item : Item} {s t : State} (hs : s.cur < s.engines.length)
    (ho : E.sess = .opened) (ht : E.txPending = none) (h : rtuItem E item s = .next t) :
    ∃ F, s.MovesTo F t ∧ E.KeepsInv F := by
  obtain ⟨b, -, hp, rfl⟩ | ⟨-, -, -, rfl⟩ | ⟨-, -, -, -, rfl⟩ | ⟨-, -, -, -, hexec⟩ |
    ⟨-, -, -, -, rfl⟩ | ⟨b, -, -, rfl⟩ | ⟨-, -, rfl⟩ | ⟨-, rfl⟩ := rtuItem_next h
  · exact ⟨_, movesTo_setEngine _ _, fun _ hI => hI.rtuByte ht hp b⟩
  · exact ⟨_, movesTo_setEngine _ _, fun _ hI => hI⟩
  · exact ⟨_, movesTo_setEngine _ _, fun _ hI => hI.drop ho (by decide)⟩
  · exact execPdu_keepsInv hs ho hexec
  · exact ⟨_, movesTo_setEngine _ _, fun _ hI => hI.drop ho (by decide)⟩
  · exact ⟨_, movesTo_setEngine _ _, fun _ hI => hI⟩
  · exact ⟨_, movesTo_setEngine _ _, fun _ hI => hI.drop ho (by decide)⟩
  · exact ⟨_, movesTo_setEngine _ _, fun _ hI => hI.rtuEos ht⟩

theorem consume_sessionStep {k : Nat} {s t : State} (h : consume k s = .next t) :
    s.SessionStep k t := by
  obtain hc | hc | ⟨E, item, more, ⟨hE, ho, ht, hi⟩, hc⟩ := consume_cases k s <;> rw [hc] at h
  · cases h
  · exact .inl (Host.Outcome.next.inj h).symm
  · have hk : k < s.engines.length := (List.getElem?_eq_some_iff.mp hE).1
    have hItem : ∃ F, State.MovesTo { s with cur := k } F t ∧
        Engine.KeepsInv { E with input := more } F := by
      unfold itemRule at h
      split at h
      · exact tcpItem_keepsInv hk ho ht h
      · exact rtuItem_keepsInv hk ho ht h
    obtain ⟨F, hF, hKeeps⟩ := hItem
    refine .inr ⟨E, F, hE, ho, fun mode hI => hKeeps mode (hI.setInput fun hm hmem => ?_), hF⟩
    obtain ⟨-, -, -, -, -, -, hgap⟩ := hI
    exact hgap hm (hi ▸ List.mem_cons_of_mem _ hmem)

theorem emit_sessionStep {k : Nat} {b : Bool} {s t : State} (h : emit k b s = .next t) :
    s.SessionStep k t := by
  obtain rfl | ⟨E, p, hE, ho, hp, rfl⟩ := emit_next h
  · exact .inl rfl
  · refine .inr ⟨E, _, hE, ho, fun mode hI => ?_, movesTo_setEngine _ _⟩
    cases b
    · exact hI.emitFailed
    · exact hI.emitAccepted ho hp

/-! ### CLOSED is terminal -/

/-- A step of any session leaves every CLOSED session as it is. -/
theorem State.SessionStep.closed_getElem? {s t : State} {k j : Nat} {C : Engine}
    (h : s.SessionStep k t) (hC : s.engines[j]? = some C) (hc : C.sess = .closed) :
    t.engines[j]? = some C := by
  obtain rfl | ⟨E, F, hE, ho, -, m, rfl, -⟩ := h
  · exact hC
  · have hkj : k ≠ j := by
      rintro rfl
      obtain rfl := Option.some.inj (hE.symm.trans hC)
      simp [ho] at hc
    simpa [List.getElem?_set_ne hkj] using hC

/-- One event keeps a CLOSED session; only `feed` adds to its stream. -/
theorem stepEvent_closed {e : Event} {s t : State} {k : Nat} {E : Engine}
    (h : stepEvent e s = .next t) (he : ∀ p, e ≠ .restart p) (hE : s.engines[k]? = some E)
    (hc : E.sess = .closed) : ∃ more, t.engines[k]? = some { E with input := E.input ++ more } := by
  have kept : t.engines[k]? = some E →
      ∃ more, t.engines[k]? = some { E with input := E.input ++ more } := fun ht => ⟨[], by simpa using ht⟩
  cases e with
  | connect =>
    obtain ⟨-, rfl, -⟩ := connect_next h
    exact kept (by rw [List.getElem?_append_left (List.getElem?_eq_some_iff.mp hE).1, hE])
  | feed j item =>
    obtain ⟨E', hE', -, rfl⟩ := feed_next h
    obtain rfl | hjk := eq_or_ne j k
    · obtain rfl := Option.some.inj (hE.symm.trans hE')
      exact ⟨[item], by simp [(List.getElem?_eq_some_iff.mp hE).1]⟩
    · exact kept (by rw [List.getElem?_set_ne hjk, hE])
  | consume j =>
    exact kept ((consume_sessionStep h).closed_getElem? hE hc)
  | emit j b =>
    exact kept ((emit_sessionStep h).closed_getElem? hE hc)
  | abort =>
    obtain rfl := Host.Outcome.next.inj h
    exact kept (by simp [hE, aborted_closed E hc])
  | hostWriteBits tab a vs =>
    obtain ⟨-, -, rfl⟩ := hostWriteBits_next h
    exact kept hE
  | hostWriteWords tab a vs =>
    obtain ⟨-, -, rfl⟩ := hostWriteWords_next h
    exact kept hE
  | reconfigure p => cases h
  | restart p => exact absurd rfl (he p)

/-- Settles O41, by the event of the step: only OPEN instances move. -/
theorem closedSessionsNeverChange : Obligations.ClosedSessionsNeverChange := by
  unfold Obligations.ClosedSessionsNeverChange
  intro s t k E h hrestart hE hc
  obtain ⟨-, rfl⟩ | ⟨e, rest, hs, he⟩ := step_next h
  · exact ⟨[], by simpa using hE⟩
  · exact stepEvent_closed he (fun p hp => hrestart p (by simp [hs, hp])) hE hc

end Sys2Proof.Machine
end

section
/-! PROOF. Every step keeps the invariant of the whole state. -/

namespace Sys2Proof.Machine

variable {s t : State}

/-! ### The session count (spec/60_exceptions.md R321) -/

/-- Replacing a session by one that is OPEN only where it was raises no count. -/
theorem openCount_set_le {k : Nat} {E F : Engine} (hE : s.engines[k]? = some E)
    (hF : F.sess = .opened → E.sess = .opened) :
    State.openCount { s with engines := s.engines.set k F } ≤ s.openCount := by
  obtain ⟨hk, rfl⟩ := List.getElem?_eq_some_iff.mp hE
  unfold State.openCount
  rw [List.countP_set hk]
  by_cases ho : s.engines[k].sess = .opened
  · have hpos : 0 < s.engines.countP fun E => E.sess == .opened :=
      List.countP_pos_iff.mpr ⟨_, List.getElem_mem hk, by simpa using ho⟩
    simp only [ho, beq_self_eq_true, if_true]
    split <;> omega
  · have hF' : F.sess ≠ .opened := fun h => ho (hF h)
    simp [ho, hF']

theorem openCount_connect (s : State) (mode : Transport) :
    State.openCount { s with engines := s.engines ++ [Engine.create mode] } = s.openCount + 1 := by
  simp [State.openCount, Engine.create]

theorem roomForSession_lt (h : s.roomForSession = true) : ∀ n ∈ s.maxSessions, s.openCount < n := by
  intro n hn
  simpa [State.roomForSession, Option.mem_def.mp hn] using h

/-! ### Changes of one component -/

theorem State.Inv.setStore (h : s.Inv) {m : Memory} (hm : Memory.wf s.preset m) :
    State.Inv { s with store := m } := by
  obtain ⟨-, hrest⟩ := h
  exact ⟨hm, hrest⟩

/-- A session may be replaced by one that keeps `Engine.Inv` and is OPEN only where it was. -/
theorem State.Inv.setInstance (h : s.Inv) {k : Nat} {E F : Engine} (hE : s.engines[k]? = some E)
    (hF : F.sess = .opened → E.sess = .opened) (hKeeps : E.KeepsInv F) :
    State.Inv { s with engines := s.engines.set k F } := by
  obtain ⟨hStore, hAddr, hEngines, hRtu, hTcp, hEnded⟩ := h
  have hEmem := List.mem_of_getElem? hE
  refine ⟨hStore, hAddr, fun G hG => ?_, fun hm => ?_, fun hm n hn => ?_, fun he G hG => ?_⟩
  · obtain hG | rfl := List.mem_or_eq_of_mem_set hG
    · exact hEngines G hG
    · exact hKeeps _ (hEngines E hEmem)
  · simpa using hRtu hm
  · exact (openCount_set_le hE hF).trans (hTcp hm n hn)
  · obtain hG | rfl := List.mem_or_eq_of_mem_set hG
    · exact hEnded he G hG
    · have hc := hEnded he E hEmem
      cases hs : G.sess
      · simp [hF hs] at hc
      · rfl

theorem State.Inv.sessionStep (h : s.Inv) {k : Nat} (hStep : s.SessionStep k t) : t.Inv := by
  obtain rfl | ⟨E, F, hE, ho, hKeeps, m, rfl, hm⟩ := hStep
  · exact h
  · exact (h.setInstance hE (fun _ => ho) hKeeps).setStore (hm h.1)

/-! ### The events -/

theorem State.Inv.connect (h : s.Inv) (hc : Machine.connect s = .next t) : t.Inv := by
  obtain ⟨hrun, rfl, hroom, hsingle⟩ := connect_next hc
  obtain ⟨hStore, hAddr, hEngines, -, -, -⟩ := h
  refine ⟨hStore, hAddr, fun G hG => ?_, fun hm => by simp [hsingle hm], fun hm n hn => ?_,
    fun he => by simp [hrun] at he⟩
  · obtain hG | hG := List.mem_append.mp hG
    · exact hEngines G hG
    · rw [List.mem_singleton.mp hG]
      exact Engine.Inv.create _
  · rw [openCount_connect]
    exact roomForSession_lt (hroom hm) n hn

theorem State.Inv.feed (h : s.Inv) {k : Nat} {item : Item} (hf : Machine.feed k item s = .next t) :
    t.Inv := by
  obtain ⟨E, hE, hgap, rfl⟩ := feed_next hf
  refine h.setInstance hE id fun mode hI => hI.setInput fun hm hmem => ?_
  obtain ⟨-, -, -, -, -, -, hInput⟩ := hI
  obtain hmem | hmem := List.mem_append.mp hmem
  · exact hInput hm hmem
  · exact hgap ⟨hm, (List.mem_singleton.mp hmem).symm⟩

theorem State.Inv.abort (h : s.Inv) : State.Inv (Machine.abort s) := by
  obtain ⟨hStore, hAddr, hEngines, hRtu, -, -⟩ := h
  have hClosed : ∀ G ∈ s.engines.map Engine.aborted, G.sess = .closed := by simp
  have hCount : (Machine.abort s).openCount = 0 := by simp [State.openCount]
  refine ⟨hStore, hAddr, fun G hG => ?_, by simpa using hRtu, fun _ n _ => by simp [hCount],
    fun _ => hClosed⟩
  obtain ⟨E, hE, rfl⟩ := List.mem_map.mp hG
  exact (hEngines E hE).aborted

/-- A process start with an addressable preset meets the invariant (spec/70_reset_and_hazards.md R340). -/
theorem State.Inv.boot {p : Params} (hp : p.preset.addressable) : (State.boot p).Inv :=
  ⟨Memory_empty_wf p.preset, hp, nofun, fun _ => Nat.zero_le 1, fun _ n _ => Nat.zero_le n, nofun⟩

theorem stepEvent_keeps_inv {e : Event} (h : s.Inv) (he : stepEvent e s = .next t) : t.Inv := by
  cases e with
  | connect => exact h.connect he
  | feed k item => exact h.feed he
  | consume k => exact h.sessionStep (consume_sessionStep he)
  | emit k b => exact h.sessionStep (emit_sessionStep he)
  | abort =>
    obtain rfl := Host.Outcome.next.inj he
    exact h.abort
  | hostWriteBits tab a vs =>
    obtain ⟨-, ha, rfl⟩ := hostWriteBits_next he
    exact h.setStore (memWriteBits_wf tab a vs h.1 ha)
  | hostWriteWords tab a vs =>
    obtain ⟨-, ha, rfl⟩ := hostWriteWords_next he
    exact h.setStore (memWriteWords_wf tab a vs h.1 ha)
  | reconfigure p => cases he
  | restart p =>
    obtain ⟨-, -, hp, rfl⟩ := restart_next he
    exact State.Inv.boot hp

/-- Settles O55, by the event of the step. -/
theorem stepKeepsTheInvariant : Obligations.StepKeepsTheInvariant := by
  unfold Obligations.StepKeepsTheInvariant
  intro s t h hstep
  obtain ⟨-, rfl⟩ | ⟨e, rest, -, he⟩ := step_next hstep
  · exact h
  · exact stepEvent_keeps_inv (s := { s with schedule := rest }) h he

end Sys2Proof.Machine
end

section
/-! PROOF. `MemWrite` and the simulation hook, read cell by cell (spec/20_memory.md R63, R65, R71). -/

namespace Sys2Proof.Machine

/-- What `MemWrite` leaves in every cell of every table of bits. -/
theorem bit?_memWriteBits {s : State} {t : BitTable} {a : Nat} {vs : List Bool}
    (ha : a + vs.length ≤ s.bitCapacity t) (t' : BitTable) (b : Nat) :
    (s.memWriteBits t a vs).bit? t' b =
      if t' = t ∧ a ≤ b ∧ b < a + vs.length then vs[b - a]? else s.bit? t' b := by
  unfold State.bit?
  obtain rfl | ht := eq_or_ne t' t
  · simpa using cellRead_cellsWrite _ vs (Memory.bits s.store t') a b ha
  · simp [ht, bits_setBits_ne s.store _ ht]

/-- What `MemWrite` leaves in every cell of every table of words. -/
theorem word?_memWriteWords {s : State} {t : WordTable} {a : Nat} {vs : List Word}
    (ha : a + vs.length ≤ s.wordCapacity t) (t' : WordTable) (b : Nat) :
    (s.memWriteWords t a vs).word? t' b =
      if t' = t ∧ a ≤ b ∧ b < a + vs.length then vs[b - a]? else s.word? t' b := by
  unfold State.word?
  obtain rfl | ht := eq_or_ne t' t
  · simpa using cellRead_cellsWrite _ vs (Memory.words s.store t') a b ha
  · simp [ht, words_setWords_ne s.store _ ht]

/-- Settles O17: the law of a read after `MemWrite`, at a target, beside the targets, and at another
table. -/
theorem memWriteSetsExactlyTheTargetCells : Obligations.MemWriteSetsExactlyTheTargetCells := by
  unfold Obligations.MemWriteSetsExactlyTheTargetCells
  refine ⟨fun s t a vs ha => ⟨fun i hi => ?_, fun b hb => ?_, fun t' b ht => ?_, fun t' b => ?_⟩,
    fun s t a vs ha => ⟨fun i hi => ?_, fun b hb => ?_, fun t' b ht => ?_, fun t' b => ?_⟩⟩
  · rw [bit?_memWriteBits ha, if_pos ⟨rfl, by omega⟩, Nat.add_sub_cancel_left]
  · rw [bit?_memWriteBits ha, if_neg fun h => hb h.2]
  · rw [bit?_memWriteBits ha, if_neg fun h => ht h.1]
  · exact memWriteBits_word? s t a vs t' b
  · rw [word?_memWriteWords ha, if_pos ⟨rfl, by omega⟩, Nat.add_sub_cancel_left]
  · rw [word?_memWriteWords ha, if_neg fun h => hb h.2]
  · rw [word?_memWriteWords ha, if_neg fun h => ht h.1]
  · exact memWriteWords_bit? s t a vs t' b

theorem hostWriteBits_within {s : State} {t : BitTable} {a : Nat} {vs : List Bool}
    (he : s.epoch = .running) (ha : a + vs.length ≤ s.bitCapacity t) :
    hostWriteBits t a vs s = .next (s.memWriteBits t a vs) := by
  simp only [hostWriteBits, he, if_pos ha]

theorem hostWriteWords_within {s : State} {t : WordTable} {a : Nat} {vs : List Word}
    (he : s.epoch = .running) (ha : a + vs.length ≤ s.wordCapacity t) :
    hostWriteWords t a vs s = .next (s.memWriteWords t a vs) := by
  simp only [hostWriteWords, he, if_pos ha]

/-- Settles O19: within the capacity the hook is `MemWrite`. -/
theorem hostWriteChangesOnlyItsCells : Obligations.HostWriteChangesOnlyItsCells := by
  unfold Obligations.HostWriteChangesOnlyItsCells
  refine ⟨fun s rest tab a vs hs he ha => ⟨(s.memWriteBits tab a vs).store, ?_, ?_, ?_⟩,
    fun s rest tab a vs hs he ha => ⟨(s.memWriteWords tab a vs).store, ?_, ?_, ?_⟩⟩
  · rw [step_event hs, stepEvent, hostWriteBits_within (by exact he) (by exact ha)]
    rfl
  · exact bit?_memWriteBits ha
  · exact memWriteBits_word? s tab a vs
  · rw [step_event hs, stepEvent, hostWriteWords_within (by exact he) (by exact ha)]
    rfl
  · exact word?_memWriteWords ha
  · exact memWriteWords_bit? s tab a vs

end Sys2Proof.Machine
end

section
/-! PROOF. The canonical form of a store is unique: what the cells read decides what is listed
(spec/20_memory.md section 1, R66). -/

namespace Sys2Proof.Machine

section

variable {α : Type} {preset : List α} {m₁ m₂ : List (Nat × α)}

/-- In canonical form a cell is listed exactly where it reads another value than its preset. -/
theorem mem_iff_cellRead (h : cellsWf preset m₁) (a : Nat) (v : α) :
    (a, v) ∈ m₁ ↔ cellRead preset m₁ a = some v ∧ preset[a]? ≠ some v := by
  obtain ⟨hRising, hCells⟩ := h
  constructor
  · intro hmem
    obtain ⟨ha, hv⟩ := hCells (a, v) hmem
    exact ⟨by simp [cellRead, cellLookup_of_mem m₁ hRising hmem, ha], hv⟩
  · rintro ⟨hread, hv⟩
    cases hl : cellLookup m₁ a with
    | none => exact absurd (by simpa [cellRead, hl] using hread) hv
    | some w =>
      obtain ⟨-, -, rfl⟩ : ∃ d, preset[a]? = some d ∧ w = v := by
        simpa [cellRead, hl] using hread
      exact cellLookup_mem m₁ hl

/-- Two tables in canonical form that read alike list the same cells. -/
theorem eq_of_cellRead_eq (h₁ : cellsWf preset m₁) (h₂ : cellsWf preset m₂)
    (h : ∀ a, cellRead preset m₁ a = cellRead preset m₂ a) : m₁ = m₂ := by
  exact h₁.1.eq_of_mem_iff h₂.1 fun ⟨a, v⟩ => by
    rw [mem_iff_cellRead h₁, mem_iff_cellRead h₂, h a]

end

/-- Settles O18, table by table. -/
theorem canonicalStoresThatReadAlikeAreEqual :
    Obligations.CanonicalStoresThatReadAlikeAreEqual := by
  unfold Obligations.CanonicalStoresThatReadAlikeAreEqual
  intro s t hp hs ht ⟨hbits, hwords⟩
  rw [← hp] at ht
  have hBits : ∀ tab, Memory.bits s.store tab = Memory.bits t.store tab := fun tab =>
    eq_of_cellRead_eq (cellsWf_bits hs tab) (cellsWf_bits ht tab) fun a => by
      simpa [State.bit?, hp] using (hbits tab a).symm
  have hWords : ∀ tab, Memory.words s.store tab = Memory.words t.store tab := fun tab =>
    eq_of_cellRead_eq (cellsWf_words hs tab) (cellsWf_words ht tab) fun a => by
      simpa [State.word?, hp] using (hwords tab a).symm
  calc s.store = ⟨s.store.coils, s.store.di, s.store.hr, s.store.ir⟩ := rfl
    _ = ⟨t.store.coils, t.store.di, t.store.hr, t.store.ir⟩ := by
      congr 1
      exacts [hBits .coils, hBits .di, hWords .hr, hWords .ir]

end Sys2Proof.Machine
end

section
/-! PROOF. What a serving session answers: the response of a request, and the exceptions of the two
checks of a store operation (spec/20_memory.md R72, R73, spec/43_dispatcher.md R213 to R215). -/

namespace Sys2Proof.Machine

variable {s : State} {E : Engine} {env : Envelope} {fc : Byte}
  {perform : State → Except WireExc (State × List Byte)}

/-- A request that succeeds: its response waits, and the store is the one it left. -/
theorem request_responds {m : Memory} {r : List Byte} (h : Serving s E env)
    (hp : perform s = .ok ({ s with store := m }, r)) :
    request fc perform s = .next (afterExec s E env r 0x0001 m) := by
  rw [request_ok h hp]
  rfl

/-- A request that raises: its exception response waits, and the store is as it was. -/
theorem request_raises {e : WireExc} (h : Serving s E env) (hp : perform s = .error e) :
    request fc perform s =
      .next (afterExec s E env (encodeExc fc (excCode e)) (excStatus (excCode e)) s.store) := by
  rw [request_error h hp]
  rfl

/-- A request whose count fails the check of R72 is answered IllegalDataValue. -/
theorem request_count {x : Byte} {qmax count start capacity : Nat} {done : State × List Byte}
    (h : Serving s E env) (hfc : fc ||| 0x80 = x)
    (hp : perform s = checked qmax count start capacity done) (hq : count < 1 ∨ qmax < count) :
    request fc perform s = .next (afterExec s E env [x, 0x03] 0x0302 s.store) := by
  subst hfc
  exact request_raises h (hp.trans (checked_error.mpr (storeCheck_count hq)))

/-- A request whose range fails the check of R73 is answered IllegalDataAddress. -/
theorem request_bounds {x : Byte} {qmax count start capacity : Nat} {done : State × List Byte}
    (h : Serving s E env) (hfc : fc ||| 0x80 = x)
    (hp : perform s = checked qmax count start capacity done)
    (h₁ : 1 ≤ count) (hq : count ≤ qmax) (hb : capacity < start + count) :
    request fc perform s = .next (afterExec s E env [x, 0x02] 0x0202 s.store) := by
  subst hfc
  exact request_raises h (hp.trans (checked_error.mpr (storeCheck_bounds ⟨h₁, hq⟩ hb)))

/-- Settles O28: the count check comes first, and the data of FC15 and FC16 unpack to `qty` values. -/
theorem countOutOfRangeIsIllegalDataValue : Obligations.CountOutOfRangeIsIllegalDataValue := by
  unfold Obligations.CountOutOfRangeIsIllegalDataValue
  intro s E env start qty bc data h
  refine ⟨fun hq => ⟨?_, ?_⟩, fun hq => ⟨?_, ?_⟩, fun hq => ?_, fun hq => ?_⟩
  · exact request_count h rfl rfl hq
  · exact request_count h rfl rfl hq
  · exact request_count h rfl rfl hq
  · exact request_count h rfl rfl hq
  · exact request_count h rfl rfl (by rwa [unpackBits_length])
  · exact request_count h rfl rfl (by rwa [unpackWords_length])

/-- Settles O29: the bounds check comes after a legal count, and before any write. -/
theorem rangePastTheTableIsIllegalDataAddress :
    Obligations.RangePastTheTableIsIllegalDataAddress := by
  unfold Obligations.RangePastTheTableIsIllegalDataAddress
  intro s E env start qty value bc data h
  refine ⟨fun h₁ hq hb => ?_, fun h₁ hq hb => ?_, fun h₁ hq hb => ?_, fun h₁ hq hb => ?_,
    fun hb => ?_, fun hb => ?_, fun h₁ hq hb => ?_, fun h₁ hq hb => ?_⟩
  · exact request_bounds h rfl rfl h₁ hq hb
  · exact request_bounds h rfl rfl h₁ hq hb
  · exact request_bounds h rfl rfl h₁ hq hb
  · exact request_bounds h rfl rfl h₁ hq hb
  · exact request_bounds h rfl rfl (Nat.le_refl 1) (Nat.le_refl 1) hb
  · exact request_bounds h rfl rfl (Nat.le_refl 1) (Nat.le_refl 1) hb
  · have hlen := unpackBits_length data qty.toNat
    exact request_bounds h rfl rfl (by rwa [hlen]) (by rwa [hlen]) (by rwa [hlen])
  · have hlen := unpackWords_length data qty.toNat
    exact request_bounds h rfl rfl (by rwa [hlen]) (by rwa [hlen]) (by rwa [hlen])

end Sys2Proof.Machine
end

section
/-! PROOF. A register write read back (spec/20_memory.md R75, R77). -/

namespace Sys2Proof.Machine

/-- A big-endian field and its two bytes. -/
theorem BE16_ofBE16 (a b : Byte) : BE16 (ofBE16 a b) = [a, b] := by simp [BE16]

theorem unpackWords_cons_cons (a b : Byte) (data : List Byte) (n : Nat) :
    unpackWords (a :: b :: data) (n + 1) = ofBE16 a b :: unpackWords data n := by
  simp [unpackWords, List.range_succ_eq_map, be16, Nat.mul_succ, Function.comp_def]

/-- Unpacking whole words loses no byte (spec/46_write_multiple_fc15_16.md R261). -/
theorem wordBytes_unpackWords {data : List Byte} {n : Nat} (h : data.length = 2 * n) :
    wordBytes (unpackWords data n) = data := by
  induction n generalizing data with
  | zero => rw [List.eq_nil_of_length_eq_zero h]; rfl
  | succ n ih =>
    match data, h with
    | a :: b :: data, h =>
      have hrest : wordBytes (unpackWords data n) = data := ih (by simpa [Nat.mul_succ] using h)
      rw [unpackWords_cons_cons, wordBytes, List.flatMap_cons, BE16_ofBE16, ← wordBytes, hrest]
      rfl

/-- What is read depends on the store and the capacities alone: no session, no configuration. -/
theorem memReadWords_congr {u t : State} (hstore : u.store = t.store) (hpreset : u.preset = t.preset)
    (tab : WordTable) (a n : Nat) : u.memReadWords tab a n = t.memReadWords tab a n := by
  simp only [State.memReadWords, State.word?, hstore, hpreset]

/-- `MemRead` after `MemWrite` over the same range gives the cells written. -/
theorem memReadWords_memWriteWords {s : State} {t : WordTable} {a : Nat} {vs : List Word}
    (ha : a + vs.length ≤ s.wordCapacity t) :
    (s.memWriteWords t a vs).memReadWords t a vs.length = vs := by
  refine List.ext_getElem (by simp) fun i _ hi => ?_
  simp [State.memReadWords, word?_memWriteWords ha, hi]

/-- The response to a read of the words of `data` carries `data` itself (spec/30_encoding.md R97). -/
theorem respWords_unpackWords (fc : Byte) {qty : Word} {bc : Byte} {data : List Byte}
    (hdata : data.length = bc.toNat) (hbc : bc.toNat = 2 * qty.toNat) :
    respWords fc qty (unpackWords data qty.toNat) = fc :: bc :: data := by
  rw [respWords, wordBytes_unpackWords (hdata.trans hbc), ← hbc, BitVec.ofNat_toNat,
    BitVec.setWidth_eq]

theorem performReadWords_within {fc : Byte} {t : WordTable} {start qty : Word} {s : State}
    (h₁ : 1 ≤ qty.toNat) (hq : qty.toNat ≤ Config.qmaxReadWords)
    (hb : start.toNat + qty.toNat ≤ s.wordCapacity t) :
    performReadWords fc t start qty s =
      .ok (s, respWords fc qty (s.memReadWords t start.toNat qty.toNat)) :=
  checked_ok.mpr ⟨⟨h₁, hq, hb⟩, rfl⟩

theorem performWriteWords_within {fc : Byte} {qmax : Nat} {start second : Word} {vs : List Word}
    {s : State} (h₁ : 1 ≤ vs.length) (hq : vs.length ≤ qmax)
    (hb : start.toNat + vs.length ≤ s.wordCapacity .hr) :
    performWriteWords fc qmax start second vs s =
      .ok (s.memWriteWords .hr start.toNat vs, respEcho fc start second) :=
  checked_ok.mpr ⟨⟨h₁, hq, hb⟩, rfl⟩

/-- Settles O26: the write leaves the words of `data` in HR, and the read packs them again. -/
theorem multiRegisterWriteIsReadBackWhole : Obligations.MultiRegisterWriteIsReadBackWhole := by
  unfold Obligations.MultiRegisterWriteIsReadBackWhole
  intro s E env start qty bc data h hwf h₁ hq hb
  obtain ⟨hdata, hbc⟩ : data.length = bc.toNat ∧ bc.toNat = 2 * qty.toNat := by
    simpa [Instr.WellFormed, Instr.checks, registerBytes] using hwf
  have hlen := unpackWords_length data qty.toNat
  have hfits : start.toNat + (unpackWords data qty.toNat).length ≤ s.wordCapacity .hr := by
    rwa [hlen]
  refine ⟨_, request_responds h (performWriteWords_within (by rwa [hlen]) (by rwa [hlen]) hfits),
    fun u F env' hstore hpreset hu => ?_⟩
  have hread : u.memReadWords .hr start.toNat qty.toNat = unpackWords data qty.toNat := by
    calc u.memReadWords .hr start.toNat qty.toNat
        = (s.memWriteWords .hr start.toNat (unpackWords data qty.toNat)).memReadWords .hr
            start.toNat qty.toNat := memReadWords_congr hstore hpreset _ _ _
      _ = unpackWords data qty.toNat := by
          simpa only [hlen] using memReadWords_memWriteWords hfits
  have hcap : start.toNat + qty.toNat ≤ u.wordCapacity .hr := by
    rw [State.wordCapacity, hpreset]
    exact hb
  rw [← respWords_unpackWords 0x03 hdata hbc, ← hread]
  exact request_responds hu (performReadWords_within h₁ (hq.trans (by decide)) hcap)

end Sys2Proof.Machine
end

section
/-! PROOF. The store at reset, cell by cell (spec/20_memory.md R66, spec/70_reset_and_hazards.md R341). -/

namespace Sys2Proof.Machine

/-- At reset a cell of a table of bits reads its preset. -/
theorem boot_bit? (p : Params) (t : BitTable) (a : Nat) :
    (State.boot p).bit? t a = (Preset.bits p.preset t)[a]? := by
  cases t <;> simp [State.bit?, State.boot, Memory.empty, Memory.bits, cellRead, cellLookup]

/-- At reset a cell of a table of words reads its preset. -/
theorem boot_word? (p : Params) (t : WordTable) (a : Nat) :
    (State.boot p).word? t a = (Preset.words p.preset t)[a]? := by
  cases t <;> simp [State.word?, State.boot, Memory.empty, Memory.words, cellRead, cellLookup]

/-- Settles O13: the reset store is the simulator preset, whose four tables are maps of `range 100`. -/
theorem defaultPresetCells : Obligations.DefaultPresetCells := by
  unfold Obligations.DefaultPresetCells
  simp only [State.reset, boot_bit?, boot_word?, Params.default, Preset.simulator, Preset.bits,
    Preset.words]
  refine ⟨fun i hi => ?_, fun i hi => ?_⟩
  · simp [hi, beq_eq_decide]
  · simp [hi]

end Sys2Proof.Machine
end

section
/-! PROOF. What a session's step may read and write: its own registers, the configuration and the store
(spec/20_memory.md R64, R83, spec/60_exceptions.md R317, R320). -/

namespace Sys2Proof.Machine

/-! ### A rule of the current session -/

/-- `u` offers the current session what `s` does: the configuration, the capacities, the store and the
session's own registers. -/
abbrev State.AgreesWith (u s : State) : Prop :=
  u.cfg = s.cfg ∧ u.preset = s.preset ∧ u.store = s.store ∧ u.engine? = s.engine?

/-- `m` lists the cells of DI and IR as `n` does. -/
abbrev Memory.SameInputs (m n : Memory) : Prop := m.di = n.di ∧ m.ir = n.ir

/-- Where `rule` takes a step, it leaves the current session as some `F` and the store as some `m`, with
DI and IR as they were, and `F` and `m` depend only on what the session may read (R64, R83). -/
def OwnRule (rule : State → Host.Outcome State Fault Refusal) : Prop :=
  ∀ s t, rule s = .next t → ∃ F m, m.SameInputs s.store ∧
    ∀ u : State, u.AgreesWith s → rule u = .next { u.setEngine F with store := m }

/-- `perform` reads and writes nothing but the store, and writes neither DI nor IR (R64). -/
def OwnPerform (perform : State → Except WireExc (State × List Byte)) : Prop :=
  ∀ s, (∀ s' r, perform s = .ok (s', r) → s'.store.SameInputs s.store) ∧
    ∀ u : State, u.preset = s.preset → u.store = s.store →
      perform u = (perform s).map fun (s', r) => ({ u with store := s'.store }, r)

theorem agreesWith_setEngine {u s : State} (h : u.AgreesWith s) (E : Engine) :
    (u.setEngine E).AgreesWith (s.setEngine E) := by
  obtain ⟨hcfg, hpreset, hstore, hengine⟩ := h
  refine ⟨hcfg, hpreset, hstore, ?_⟩
  simp only [State.engine?] at hengine
  simp only [State.engine?, setEngine_engines, setEngine_cur, List.getElem?_set_self', hengine]

/-! ### EXEC -/

theorem map_checked {qmax count start capacity : Nat} {done : State × List Byte}
    (f : State × List Byte → State × List Byte) :
    (checked qmax count start capacity done).map f = checked qmax count start capacity (f done) := by
  unfold checked
  cases storeCheck qmax count start capacity <;> rfl

/-- A request reads the store and the capacities, and writes COILS or HR. -/
theorem ownPerform_performOf (i : Instr) : OwnPerform (performOf i) := by
  refine fun s => ⟨fun s' r h => ?_, fun u hpreset hstore => ?_⟩
  · obtain rfl | ⟨a, vs, -, rfl⟩ | ⟨a, vs, -, rfl⟩ := performOf_ok h
    · exact ⟨rfl, rfl⟩
    · exact ⟨rfl, rfl⟩
    · exact ⟨rfl, rfl⟩
  · obtain ⟨cfg, preset, maxSessions, baud, store, engines, epoch, cur, schedule⟩ := u
    subst hpreset hstore
    cases i with
    | unsupportedBit7 | unsupportedDefault => rfl
    | _ =>
      refine Eq.trans ?_ (map_checked _).symm
      rfl

theorem ownPerform_performRaise (e : WireExc) : OwnPerform (performRaise e) :=
  fun _ => ⟨nofun, fun _ _ _ => rfl⟩

/-- EXEC reads of the state what `perform` reads, the unit filter and the session's frame. -/
theorem ownRule_request {fc : Byte} {perform : State → Except WireExc (State × List Byte)}
    (hown : OwnPerform perform) : OwnRule (request fc perform) := by
  intro s t h
  obtain ⟨hinputs, hperf⟩ := hown s
  obtain ⟨E, env, hE, henv, hcases⟩ := request_next h
  obtain ⟨hu, s', r, hok, -⟩ | ⟨hu, e, herr, -⟩ | ⟨hu, hm, -⟩ | ⟨hu, hm, -⟩ := hcases
  · refine ⟨E.nextFrame.respond env r (plainStatus .respOk), s'.store, hinputs s' r hok,
      fun u ⟨hcfg, hpreset, hstore, hengine⟩ => ?_⟩
    have hp : perform u = .ok ({ u with store := s'.store }, r) := by
      rw [hperf u hpreset hstore, hok]
      rfl
    exact request_ok ⟨hengine.trans hE, henv, by rwa [hcfg]⟩ hp
  · refine ⟨E.nextFrame.respond env (encodeExc fc (excCode e)) (excStatus (excCode e)), s.store,
      ⟨rfl, rfl⟩, fun u ⟨hcfg, hpreset, hstore, hengine⟩ => ?_⟩
    have hp : perform u = .error e := by
      rw [hperf u hpreset hstore, herr]
      rfl
    rw [← hstore]
    exact request_error ⟨hengine.trans hE, henv, by rwa [hcfg]⟩ hp
  · refine ⟨E.nextFrame.respond env (encodeExc fc 0x01) (excStatus 0x01), s.store, ⟨rfl, rfl⟩,
      fun u ⟨hcfg, _, hstore, hengine⟩ => ?_⟩
    rw [← hstore]
    exact request_filtered_tcp (hengine.trans hE) henv (by rwa [hcfg]) hm
  · refine ⟨E.drop .dropUnit, s.store, ⟨rfl, rfl⟩, fun u ⟨hcfg, _, hstore, hengine⟩ => ?_⟩
    rw [← hstore]
    exact request_filtered_rtu (hengine.trans hE) henv (by rwa [hcfg]) hm

theorem ownRule_execPdu (p : List Byte) : OwnRule (execPdu p) := by
  cases hd : decode p with
  | ok i =>
    rw [show execPdu p = request i.fc (performOf i) from funext fun s => by
      simp only [execPdu, hd, exec_eq_request]]
    exact ownRule_request (ownPerform_performOf i)
  | error e =>
    rw [show execPdu p = request (p.getD 0 0) (performRaise (decodeExc e)) from funext fun s => by
      simp only [execPdu, hd]]
    exact ownRule_request (ownPerform_performRaise _)

/-! ### The item rules -/

theorem ownRule_setEngine (E : Engine) : OwnRule fun s => .next (s.setEngine E) := by
  refine fun s _ _ => ⟨E, s.store, ⟨rfl, rfl⟩, fun u ⟨_, _, hstore, _⟩ => ?_⟩
  rw [← hstore]
  rfl

theorem ownRule_fault (f : Fault) : OwnRule fun _ => .fault f := nofun

theorem ownRule_refused (r : Refusal) : OwnRule fun _ => .refused r := nofun

/-- A rule may set the session's registers first. -/
theorem ownRule_comp_setEngine {rule : State → Host.Outcome State Fault Refusal} (h : OwnRule rule)
    (E : Engine) : OwnRule fun s => rule (s.setEngine E) := by
  intro s t hs
  obtain ⟨F, m, hinputs, hrule⟩ := h (s.setEngine E) t hs
  refine ⟨F, m, hinputs, fun u hu => ?_⟩
  simpa [State.setEngine] using hrule (u.setEngine E) (agreesWith_setEngine hu E)

theorem ownRule_tcpBodyByte (E : Engine) (b : Byte) : OwnRule (tcpBodyByte E b) := by
  unfold tcpBodyByte
  cases E.hdr with
  | none => exact ownRule_fault _
  | some h =>
    by_cases hn : (E.buf ++ [b]).length = h.len.toNat - 1
    · simp only [if_pos hn]
      exact ownRule_comp_setEngine (ownRule_execPdu _) _
    · simp only [if_neg hn]
      exact ownRule_setEngine _

theorem ownRule_tcpItem (E : Engine) (item : Item) : OwnRule (tcpItem E item) := by
  unfold tcpItem
  cases item with
  | gap => exact ownRule_refused _
  | byte b =>
    cases E.phase with
    | tcpHdr => exact ownRule_setEngine _
    | tcpBody => exact ownRule_tcpBodyByte E b
    | rtuRecv | rtuDiscard => exact ownRule_fault _
  | eos =>
    cases E.phase with
    | tcpHdr | tcpBody => exact ownRule_setEngine _
    | rtuRecv | rtuDiscard => exact ownRule_fault _

theorem ownRule_rtuGap (E : Engine) : OwnRule (rtuGap E) := by
  unfold rtuGap
  by_cases h0 : E.buf.length = 0
  · simp only [if_pos h0]
    exact ownRule_setEngine E
  · simp only [if_neg h0]
    by_cases hmin : E.buf.length < Config.rtuFrameMin
    · simp only [if_pos hmin]
      exact ownRule_setEngine _
    · simp only [if_neg hmin]
      cases crcPasses E.buf with
      | true => exact ownRule_comp_setEngine (ownRule_execPdu _) E
      | false => exact ownRule_setEngine _

theorem ownRule_rtuItem (E : Engine) (item : Item) : OwnRule (rtuItem E item) := by
  unfold rtuItem
  cases E.phase with
  | rtuRecv =>
    cases item with
    | byte | eos => exact ownRule_setEngine _
    | gap => exact ownRule_rtuGap E
  | rtuDiscard => cases item <;> exact ownRule_setEngine _
  | tcpHdr | tcpBody => exact ownRule_fault _

theorem ownRule_itemRule (E : Engine) (item : Item) : OwnRule (itemRule E item) := by
  unfold itemRule
  cases E.mode with
  | tcp => exact ownRule_tcpItem E item
  | rtu => exact ownRule_rtuItem E item

/-! ### The consume step -/

/-- A session waits, or its next item is there to be consumed. -/
theorem idle_or_receiving {s : State} {k : Nat} {E : Engine} (hE : s.engines[k]? = some E) :
    (E.sess = .closed ∨ E.txPending ≠ none ∨ E.input = []) ∨
      ∃ item more, Receiving s k E item more := by
  rw [or_iff_not_imp_left]
  intro h
  simp only [not_or, not_not] at h
  obtain ⟨hs, ht, hi⟩ := h
  obtain ⟨item, more, hi⟩ := List.exists_cons_of_ne_nil hi
  refine ⟨item, more, hE, ?_, ht, hi⟩
  cases h : E.sess with
  | opened => rfl
  | closed => exact absurd h hs

/-- A consume step changes nothing, or leaves the session as some `F` and the store as some `m`, which
depend on what the session may read alone. -/
theorem consume_own {k : Nat} {s t : State} (h : consume k s = .next t) :
    (∀ u : State, u.engines[k]? = s.engines[k]? → consume k u = .next u) ∧ t = s ∨
    ∃ F m, m.SameInputs s.store ∧
      ∀ u : State, u.cfg = s.cfg → u.preset = s.preset → u.store = s.store →
        u.engines[k]? = s.engines[k]? →
        consume k u = .next { u with cur := k, engines := u.engines.set k F, store := m } := by
  cases hE : s.engines[k]? with
  | none => simp [consume, hE] at h
  | some E =>
    obtain hidle | ⟨item, more, hr⟩ := idle_or_receiving hE
    · rw [consume_idle hE hidle] at h
      exact .inl ⟨fun u hu => consume_idle hu hidle, (Host.Outcome.next.inj h).symm⟩
    · rw [consume_receiving hr] at h
      obtain ⟨F, m, hinputs, hrule⟩ := ownRule_itemRule _ _ _ _ h
      refine .inr ⟨F, m, hinputs, fun u hcfg hpreset hstore hu => ?_⟩
      rw [consume_receiving ⟨hu, hr.2⟩]
      exact hrule { u with cur := k } ⟨hcfg, hpreset, hstore, hu.trans hE.symm⟩

/-- A session's step leaves every other session as it is. -/
theorem State.SessionStep.other_getElem? {s t : State} {k j : Nat} (h : s.SessionStep k t)
    (hj : j ≠ k) : t.engines[j]? = s.engines[j]? := by
  obtain rfl | ⟨E, F, -, -, -, m, rfl, -⟩ := h
  · rfl
  · exact List.getElem?_set_ne hj.symm

/-- Settles O53: the first half by the event, the second because the item rules are the session's
own. -/
theorem sessionsShareNothingButTheStore : Obligations.SessionsShareNothingButTheStore := by
  unfold Obligations.SessionsShareNothingButTheStore
  refine ⟨fun s t k j e hj he h => ?_, fun k s₁ s₂ t₁ hcfg hpreset hstore hengine h => ?_⟩
  · obtain rfl | ⟨b, rfl⟩ | ⟨item, rfl⟩ := he
    · exact (consume_sessionStep h).other_getElem? hj
    · exact (emit_sessionStep h).other_getElem? hj
    · obtain ⟨E, -, -, rfl⟩ := feed_next h
      exact List.getElem?_set_ne hj.symm
  · obtain ⟨hidle, rfl⟩ | ⟨F, m, -, hrule⟩ := consume_own h
    · exact ⟨s₂, hidle s₂ hengine.symm, hstore.symm, hengine.symm⟩
    · have h₁ := h.symm.trans (hrule s₁ rfl rfl rfl rfl)
      obtain rfl := Host.Outcome.next.inj h₁
      refine ⟨_, hrule s₂ hcfg.symm hpreset.symm hstore.symm hengine.symm, rfl, ?_⟩
      simp only [List.getElem?_set_self', hengine]

/-! ### The wire and the input tables -/

theorem State.SessionStep.preset_eq {s t : State} {k : Nat} (h : s.SessionStep k t) :
    t.preset = s.preset := by
  obtain rfl | ⟨E, F, -, -, -, m, rfl, -⟩ := h <;> rfl

/-- A consume step writes neither DI nor IR. -/
theorem consume_sameInputs {k : Nat} {s t : State} (h : consume k s = .next t) :
    t.store.SameInputs s.store := by
  obtain ⟨-, rfl⟩ | ⟨F, m, hinputs, hrule⟩ := consume_own h
  · exact ⟨rfl, rfl⟩
  · obtain rfl := Host.Outcome.next.inj (h.symm.trans (hrule s rfl rfl rfl rfl))
    exact hinputs

/-- A step of the wire keeps the capacities, and the store too where no item is consumed. -/
theorem wireEvent_keeps {e : Event} {s t : State} (hw : wireEvent e = true)
    (h : stepEvent e s = .next t) :
    t.preset = s.preset ∧ (t.store = s.store ∨ ∃ k, e = .consume k ∧ t.store.SameInputs s.store) := by
  cases e with
  | connect =>
    obtain ⟨-, rfl, -⟩ := connect_next h
    exact ⟨rfl, .inl rfl⟩
  | feed k item =>
    obtain ⟨E, -, -, rfl⟩ := feed_next h
    exact ⟨rfl, .inl rfl⟩
  | consume k =>
    exact ⟨(consume_sessionStep h).preset_eq, .inr ⟨k, rfl, consume_sameInputs h⟩⟩
  | emit k b =>
    obtain rfl | ⟨E, p, -, -, -, rfl⟩ := emit_next h
    · exact ⟨rfl, .inl rfl⟩
    · exact ⟨rfl, .inl rfl⟩
  | abort =>
    obtain rfl := Host.Outcome.next.inj h
    exact ⟨rfl, .inl rfl⟩
  | reconfigure p => cases h
  | hostWriteBits | hostWriteWords | restart => cases hw

/-- Settles O42, by the event of the step; a read of DI or IR depends on its listed cells and its
preset. -/
theorem theWireNeverWritesInputTables : Obligations.TheWireNeverWritesInputTables := by
  unfold Obligations.TheWireNeverWritesInputTables
  intro s t e rest hs hw h
  rw [step_event hs] at h
  obtain ⟨hpreset, hstore⟩ := wireEvent_keeps hw h
  have hinputs : t.store.SameInputs s.store := by
    obtain hstore | ⟨-, -, hinputs⟩ := hstore
    · rw [hstore]
      exact ⟨rfl, rfl⟩
    · exact hinputs
  obtain ⟨hdi, hir⟩ := hinputs
  refine ⟨fun he => ?_, hdi, hir, fun a => ?_, fun a => ?_⟩
  · obtain hstore | ⟨k, rfl, -⟩ := hstore
    · exact hstore
    · exact absurd rfl (he k)
  · simp only [State.bit?, Memory.bits, hpreset, hdi]
  · simp only [State.word?, Memory.words, hpreset, hir]

end Sys2Proof.Machine
end

section
/-! PROOF. `decode` and `encode` are inverse (spec/30_encoding.md R111, spec/40_pdu_codec.md R138, R139):
each decoder of the fields accepts exactly what `Instr.fields` writes. -/

namespace Sys2Proof.Machine

variable {fc : Byte} {fields : List Byte} {i : Instr}

/-! ### The decoders of the bytes after the function code -/

theorem BE16_append_BE16_ofBE16 (a b c d : Byte) :
    BE16 (ofBE16 a b) ++ BE16 (ofBE16 c d) = [a, b, c, d] := by simp [BE16]

/-- Formats RB and WS are exactly two fields (R93, R94). -/
theorem decodeTwoFields_ok_iff {mk : Word → Word → Instr} :
    decodeTwoFields mk fields = .ok i ↔ ∃ v w, fields = BE16 v ++ BE16 w ∧ i = mk v w := by
  constructor
  · intro h
    unfold decodeTwoFields at h
    split at h
    · exact ⟨_, _, (BE16_append_BE16_ofBE16 ..).symm, (Except.ok.inj h).symm⟩
    · cases h
  · rintro ⟨v, w, rfl, rfl⟩
    simp [decodeTwoFields, BE16]

/-- FC5 is two fields, the second a coil value code (R94, R106). -/
theorem decodeCoil_ok_iff :
    decodeCoil fields = .ok i ↔
      ∃ v w, fields = BE16 v ++ BE16 w ∧ coilCodes.contains w = true ∧ i = .writeSingleCoil v w := by
  constructor
  · intro h
    unfold decodeCoil at h
    split at h
    · split at h
      · exact ⟨_, _, (BE16_append_BE16_ofBE16 ..).symm, ‹_›, (Except.ok.inj h).symm⟩
      · cases h
    · cases h
  · rintro ⟨v, w, rfl, hw, rfl⟩
    simp only [decodeCoil, BE16, List.cons_append, List.nil_append, ofBE16_bytes, if_pos hw]

/-- Format WM is two fields, the byte count and as many bytes as it says, which is what the quantity needs
(R95, spec/46_write_multiple_fc15_16.md R262). -/
theorem decodeMultiple_ok_iff {need : Word → Nat} {mk : Word → Word → Byte → List Byte → Instr} :
    decodeMultiple need mk fields = .ok i ↔
      ∃ v w bc data, fields = BE16 v ++ BE16 w ++ bc :: data ∧
        (data.length = bc.toNat ∧ bc.toNat = need w) ∧ i = mk v w bc data := by
  constructor
  · intro h
    unfold decodeMultiple at h
    split at h
    · split_ifs at h with hlen hbc
      exact ⟨_, _, _, _, by rw [BE16_append_BE16_ofBE16]; rfl, ⟨not_not.mp hlen, not_not.mp hbc⟩,
        (Except.ok.inj h).symm⟩
    · cases h
  · rintro ⟨v, w, bc, data, rfl, ⟨hlen, hbc⟩, rfl⟩
    simp [decodeMultiple, BE16, hlen, hbc]

theorem mem_supportedFcs_iff :
    supportedFcs.contains fc = true ↔
      fc = 0x01 ∨ fc = 0x02 ∨ fc = 0x03 ∨ fc = 0x04 ∨ fc = 0x05 ∨ fc = 0x06 ∨ fc = 0x0F ∨ fc = 0x10 := by
  simp [supportedFcs]

/-- A code outside the supported set is an instruction of its own (log 14). -/
theorem decodeFc_unsupported (h : supportedFcs.contains fc = false) :
    decodeFc fc fields =
      .ok (if fc.msb then .unsupportedBit7 fc fields else .unsupportedDefault fc fields) := by
  rw [Bool.eq_false_iff, ne_eq, mem_supportedFcs_iff] at h
  simp only [not_or] at h
  obtain ⟨h01, h02, h03, h04, h05, h06, h0F, h10⟩ := h
  simp only [decodeFc, h01, h02, h03, h04, h05, h06, h0F, h10, if_false]
  split <;> rfl

theorem not_supported_of_msb (h : fc.msb = true) : supportedFcs.contains fc = false := by
  revert fc
  decide

/-! ### The format checks of R130 and R262 -/

theorem writeMultipleCoils_wellFormed_iff {start qty : Word} {bc : Byte} {data : List Byte} :
    (Instr.writeMultipleCoils start qty bc data).WellFormed ↔
      data.length = bc.toNat ∧ bc.toNat = coilBytes qty := by
  simp [Instr.WellFormed, Instr.checks]

theorem writeMultipleRegisters_wellFormed_iff {start qty : Word} {bc : Byte} {data : List Byte} :
    (Instr.writeMultipleRegisters start qty bc data).WellFormed ↔
      data.length = bc.toNat ∧ bc.toNat = registerBytes qty := by
  simp [Instr.WellFormed, Instr.checks]

theorem unsupportedDefault_wellFormed_iff {rest : List Byte} :
    (Instr.unsupportedDefault fc rest).WellFormed ↔
      fc.msb = false ∧ supportedFcs.contains fc = false := by
  simp only [Instr.WellFormed, Instr.checks, Bool.and_eq_true, Bool.not_eq_true']

/-! ### Round trip -/

/-- What the codec accepts is a well-formed request with the code and the bytes it was given. -/
theorem decodeFc_sound (h : decodeFc fc fields = .ok i) :
    i.WellFormed ∧ i.fc = fc ∧ i.fields = fields := by
  cases hs : supportedFcs.contains fc with
  | false =>
    rw [decodeFc_unsupported hs] at h
    obtain rfl := Except.ok.inj h
    cases hmsb : fc.msb with
    | true => exact ⟨hmsb, rfl, rfl⟩
    | false => exact ⟨unsupportedDefault_wellFormed_iff.mpr ⟨hmsb, hs⟩, rfl, rfl⟩
  | true =>
    obtain rfl | rfl | rfl | rfl | rfl | rfl | rfl | rfl := mem_supportedFcs_iff.mp hs
    · obtain ⟨v, w, rfl, rfl⟩ := decodeTwoFields_ok_iff.mp h
      exact ⟨rfl, rfl, rfl⟩
    · obtain ⟨v, w, rfl, rfl⟩ := decodeTwoFields_ok_iff.mp h
      exact ⟨rfl, rfl, rfl⟩
    · obtain ⟨v, w, rfl, rfl⟩ := decodeTwoFields_ok_iff.mp h
      exact ⟨rfl, rfl, rfl⟩
    · obtain ⟨v, w, rfl, rfl⟩ := decodeTwoFields_ok_iff.mp h
      exact ⟨rfl, rfl, rfl⟩
    · obtain ⟨v, w, rfl, hw, rfl⟩ := decodeCoil_ok_iff.mp h
      exact ⟨hw, rfl, rfl⟩
    · obtain ⟨v, w, rfl, rfl⟩ := decodeTwoFields_ok_iff.mp h
      exact ⟨rfl, rfl, rfl⟩
    · obtain ⟨v, w, bc, data, rfl, hbc, rfl⟩ := decodeMultiple_ok_iff.mp h
      exact ⟨writeMultipleCoils_wellFormed_iff.mpr hbc, rfl, rfl⟩
    · obtain ⟨v, w, bc, data, rfl, hbc, rfl⟩ := decodeMultiple_ok_iff.mp h
      exact ⟨writeMultipleRegisters_wellFormed_iff.mpr hbc, rfl, rfl⟩

/-- The codec accepts the code and the bytes of every well-formed request, and reads it back. -/
theorem decodeFc_complete (h : i.WellFormed) : decodeFc i.fc i.fields = .ok i := by
  cases i with
  | readCoils start qty => exact decodeTwoFields_ok_iff.mpr ⟨start, qty, rfl, rfl⟩
  | readDiscreteInputs start qty => exact decodeTwoFields_ok_iff.mpr ⟨start, qty, rfl, rfl⟩
  | readHoldingRegisters start qty => exact decodeTwoFields_ok_iff.mpr ⟨start, qty, rfl, rfl⟩
  | readInputRegisters start qty => exact decodeTwoFields_ok_iff.mpr ⟨start, qty, rfl, rfl⟩
  | writeSingleCoil start value => exact decodeCoil_ok_iff.mpr ⟨start, value, rfl, h, rfl⟩
  | writeSingleRegister start value => exact decodeTwoFields_ok_iff.mpr ⟨start, value, rfl, rfl⟩
  | writeMultipleCoils start qty bc data =>
    exact decodeMultiple_ok_iff.mpr
      ⟨start, qty, bc, data, rfl, writeMultipleCoils_wellFormed_iff.mp h, rfl⟩
  | writeMultipleRegisters start qty bc data =>
    exact decodeMultiple_ok_iff.mpr
      ⟨start, qty, bc, data, rfl, writeMultipleRegisters_wellFormed_iff.mp h, rfl⟩
  | unsupportedBit7 fc rest =>
    have hmsb : fc.msb = true := h
    rw [Instr.fc, decodeFc_unsupported (not_supported_of_msb hmsb), if_pos hmsb]
    rfl
  | unsupportedDefault fc rest =>
    obtain ⟨hmsb, hs⟩ := unsupportedDefault_wellFormed_iff.mp h
    rw [Instr.fc, decodeFc_unsupported hs, hmsb]
    rfl

theorem decode_encode (h : i.WellFormed) : decode (encode i) = .ok i := decodeFc_complete h

theorem encode_of_decode {p : List Byte} (h : decode p = .ok i) : i.WellFormed ∧ encode i = p := by
  cases p with
  | nil => cases h
  | cons fc fields =>
    obtain ⟨hwf, hfc, hfields⟩ := decodeFc_sound h
    exact ⟨hwf, by rw [encode, hfc, hfields]⟩

/-- Settles O1: the two halves of the round trip, each by the function code. -/
theorem decodeAndEncodeAreInverse : Obligations.DecodeAndEncodeAreInverse := by
  unfold Obligations.DecodeAndEncodeAreInverse
  exact ⟨fun _ => decode_encode, fun _ _ => encode_of_decode⟩

/-- Settles O2: the listed PDUs, decoded. -/
theorem specVectorsDecodeAsListed : Obligations.SpecVectorsDecodeAsListed := by
  unfold Obligations.SpecVectorsDecodeAsListed
  decide

end Sys2Proof.Machine
end

section
/-! PROOF. Packed bits and words unpack to themselves, and the assembler forms that hold them decode
(spec/30_encoding.md R95, R97, R101, R114). -/

namespace Sys2Proof.Machine

/-! ### Bits -/

/-- Bit `j` of byte `i` is bit `8 * i + j` of the list, 0 beyond its end (R101). -/
theorem getLsbD_getD_pack (bits : List Bool) (i : Nat) {j : Nat} (hj : j < 8) :
    ((pack bits).getD i 0).getLsbD j = bits.getD (8 * i + j) false := by
  by_cases hi : i < ceil8 bits.length
  · simp [pack, hi, getLsbD_packByte _ j hj]
  · have hend : bits.length ≤ 8 * i + j := by
      unfold ceil8 at hi
      omega
    have hnone : (pack bits)[i]? = none := by simpa using hi
    simp [hnone, hend]

theorem unpackBits_pack (bits : List Bool) : unpackBits (pack bits) bits.length = bits := by
  refine List.ext_getElem (by simp) fun n _ hn => ?_
  have hbit := getLsbD_getD_pack bits (n / 8) (Nat.mod_lt n (by decide : 0 < 8))
  rw [Nat.div_add_mod] at hbit
  simpa [unpackBits, hn] using hbit

/-- Settles O6: the length is a count of bytes, the bits are those of `getLsbD_getD_pack`. -/
theorem bitPackingIsLeastSignificantFirst : Obligations.BitPackingIsLeastSignificantFirst := by
  unfold Obligations.BitPackingIsLeastSignificantFirst
  exact fun bits =>
    ⟨pack_length bits, fun i _ hj => getLsbD_getD_pack bits i hj, unpackBits_pack bits⟩

/-! ### Words -/

theorem unpackWords_wordBytes (ws : List Word) : unpackWords (wordBytes ws) ws.length = ws := by
  induction ws with
  | nil => rfl
  | cons w ws ih =>
    calc unpackWords (wordBytes (w :: ws)) (ws.length + 1)
        = ofBE16 (hiByte w) (loByte w) :: unpackWords (wordBytes ws) ws.length :=
          unpackWords_cons_cons ..
      _ = w :: ws := by rw [ofBE16_bytes, ih]

/-! ### The assembler forms of FC15 and FC16 -/

theorem toNat_ofNat_of_lt {w n : Nat} (h : n < 2 ^ w) : (BitVec.ofNat w n).toNat = n := by
  rw [BitVec.toNat_ofNat, Nat.mod_eq_of_lt h]

theorem assembledCoils_wellFormed (start : Word) {values : List Bool} (h : values.length ≤ 1968) :
    (Instr.writeMultipleCoils start (BitVec.ofNat 16 values.length)
      (BitVec.ofNat 8 (ceil8 values.length)) (pack values)).WellFormed := by
  have hqty : (BitVec.ofNat 16 values.length).toNat = values.length :=
    toNat_ofNat_of_lt (by omega)
  have hbc : (BitVec.ofNat 8 (ceil8 values.length)).toNat = ceil8 values.length :=
    toNat_ofNat_of_lt (by unfold ceil8; omega)
  rw [writeMultipleCoils_wellFormed_iff, pack_length, coilBytes, hqty, hbc]
  exact ⟨rfl, rfl⟩

theorem assembledRegisters_wellFormed (start : Word) {values : List Word} (h : values.length ≤ 123) :
    (Instr.writeMultipleRegisters start (BitVec.ofNat 16 values.length)
      (BitVec.ofNat 8 (2 * values.length)) (wordBytes values)).WellFormed := by
  have hqty : (BitVec.ofNat 16 values.length).toNat = values.length :=
    toNat_ofNat_of_lt (by omega)
  have hbc : (BitVec.ofNat 8 (2 * values.length)).toNat = 2 * values.length :=
    toNat_ofNat_of_lt (by omega)
  rw [writeMultipleRegisters_wellFormed_iff, wordBytes_length, registerBytes, hqty, hbc]
  exact ⟨rfl, rfl⟩

/-- Settles O7: each form is the encoding of a well-formed request whose data are the packed values. -/
theorem assembledMultipleWritesDecodeToTheirValues :
    Obligations.AssembledMultipleWritesDecodeToTheirValues := by
  unfold Obligations.AssembledMultipleWritesDecodeToTheirValues
  exact ⟨fun start values h =>
      ⟨_, _, decode_encode (assembledCoils_wellFormed start h), unpackBits_pack values⟩,
    fun start values h =>
      ⟨_, _, decode_encode (assembledRegisters_wellFormed start h), unpackWords_wordBytes values⟩⟩

end Sys2Proof.Machine
end

section
/-! PROOF. No response PDU is longer than 252 bytes, so every frame fits its limit
(spec/30_encoding.md R113, spec/44_read_fc01_04.md R235). -/

namespace Sys2Proof.Machine

variable {i : Instr} {s t : State} {E F : Engine}

/-! ### Lengths -/

@[simp] theorem respBits_length (fc : Byte) (qty : Word) (bits : List Bool) :
    (respBits fc qty bits).length = 2 + ceil8 bits.length := by
  simp [respBits]
  omega

@[simp] theorem respWords_length (fc : Byte) (qty : Word) (ws : List Word) :
    (respWords fc qty ws).length = 2 + 2 * ws.length := by
  simp [respWords]
  omega

@[simp] theorem respEcho_length (fc : Byte) (start second : Word) :
    (respEcho fc start second).length = 5 := rfl

@[simp] theorem encodeTcp_length (tid : Word) (uid : Byte) (r : List Byte) :
    (encodeTcp tid uid r).length = 7 + r.length := by
  simp [encodeTcp]
  omega

@[simp] theorem encodeRtu_length (uid : Byte) (r : List Byte) :
    (encodeRtu uid r).length = 3 + r.length := by
  simp [encodeRtu, crcAppend]
  omega

/-- 252 bytes is a read of 2000 bits or of 125 words. -/
theorem performOf_response_length {s' : State} {r : List Byte} (h : performOf i s = .ok (s', r)) :
    r.length ≤ 252 := by
  cases i <;>
    simp only [performOf, performReadBits, performReadWords, performWriteBits, performWriteWords,
      performRaise, checked_ok, Prod.mk.injEq, reduceCtorEq] at h
  case readCoils | readDiscreteInputs =>
    obtain ⟨⟨-, hq, -⟩, -, rfl⟩ := h
    simp only [Config.qmaxReadBits] at hq
    simp only [respBits_length, memReadBits_length, ceil8]
    omega
  case readHoldingRegisters | readInputRegisters =>
    obtain ⟨⟨-, hq, -⟩, -, rfl⟩ := h
    simp only [Config.qmaxReadWords] at hq
    simp only [respWords_length, memReadWords_length]
    omega
  all_goals
    obtain ⟨-, -, rfl⟩ := h
    simp

/-! ### What EXEC leaves -/

theorem performOf_engine? {s' : State} {r : List Byte} (h : performOf i s = .ok (s', r)) :
    s'.engine? = s.engine? := by
  obtain rfl | ⟨a, vs, -, rfl⟩ | ⟨a, vs, -, rfl⟩ := performOf_ok h <;> rfl

/-- EXEC leaves the current session with a response PDU of at most 252 bytes in a frame of its
request, or with the frame dropped. -/
theorem exec_engine? (h : exec i s = .next t) (hE : s.engine? = some E) :
    (∃ env r st, E.envelope = some env ∧ r.length ≤ 252 ∧
      t.engine? = some (E.nextFrame.respond env r st)) ∨
    t.engine? = some (E.drop .dropUnit) := by
  have hset : ∀ {s' : State} (G : Engine), s'.engine? = some E →
      (s'.setEngine G).engine? = some G := fun G hs' => setEngine_engine? G _ (engine?_some_lt _ hs')
  rw [exec_eq_request] at h
  obtain ⟨E', env, hE', henv, hcases⟩ := request_next h
  obtain rfl := Option.some.inj (hE.symm.trans hE')
  obtain ⟨-, s', r, hok, rfl⟩ | ⟨-, e, -, rfl⟩ | ⟨-, -, rfl⟩ | ⟨-, -, rfl⟩ := hcases
  · exact .inl ⟨env, r, _, henv, performOf_response_length hok,
      hset _ ((performOf_engine? hok).trans hE)⟩
  · exact .inl ⟨env, _, _, henv, by simp [encodeExc], hset _ hE⟩
  · exact .inl ⟨env, _, _, henv, by simp [encodeExc], hset _ hE⟩
  · exact .inr (hset _ hE)

/-- A frame adds 7 bytes to a response on TCP and 3 on RTU. -/
theorem frame_length {env : Envelope} (henv : E.envelope = some env) (r : List Byte) :
    (E.mode = .tcp → (env.frame r).length = 7 + r.length) ∧
    (E.mode = .rtu → (env.frame r).length = 3 + r.length) := by
  constructor <;> intro hm
  · rw [envelope_tcp hm] at henv
    obtain ⟨hd, -, rfl⟩ := Option.map_eq_some_iff.mp henv
    exact encodeTcp_length ..
  · rw [envelope_rtu hm] at henv
    obtain ⟨uid, -, rfl⟩ := Option.map_eq_some_iff.mp henv
    exact encodeRtu_length ..

/-- Settles O36: the response has at most 252 bytes, and a dropped frame leaves none. -/
theorem responseFramesFitTheirLimit : Obligations.ResponseFramesFitTheirLimit := by
  unfold Obligations.ResponseFramesFitTheirLimit
  intro i s t E F p h hE hidle hF hp
  obtain ⟨env, r, st, henv, hr, ht⟩ | ht := exec_engine? h hE <;>
    obtain rfl := Option.some.inj (hF.symm.trans ht)
  · obtain rfl : _ = p := Option.some.inj hp
    obtain ⟨htcp, hrtu⟩ := frame_length henv r
    exact ⟨fun hm => (htcp hm).trans_le (by omega), fun hm => (hrtu hm).trans_le (by omega)⟩
  · rw [drop_txPending, hidle] at hp
    cases hp

end Sys2Proof.Machine
end

section
/-! PROOF. The CRC of a string that ends in its own CRC is 0 (spec/42_rtu_crc.md R186). -/

namespace Sys2Proof.Machine

/-- While the bits shifted out are 0, the polynomial is not applied (R181). -/
theorem crcShifts_eq_ushiftRight {n : Nat} {c : Word} (h : ∀ j < n, c.getLsbD j = false) :
    crcShifts n c = c >>> n := by
  induction n generalizing c with
  | zero => simp [crcShifts]
  | succ n ih =>
    have hshift : crcShift c = c >>> 1 := by rw [crcShift, h 0 (by omega), if_neg Bool.false_ne_true]
    rw [crcShifts, hshift, ih fun j hj => by simpa [Nat.add_comm] using h (j + 1) (by omega),
      ← BitVec.shiftRight_add, Nat.add_comm]

/-- The low byte of the register clears its low half. -/
theorem crcUpdate_loByte (c : Word) : crcUpdate c (loByte c) = (hiByte c).zeroExtend 16 := by
  have hlow : ∀ j < 8, (c ^^^ (loByte c).zeroExtend 16).getLsbD j = false := by
    intro j hj
    simp [loByte, hj]
    omega
  rw [crcUpdate, crcShifts_eq_ushiftRight hlow]
  apply BitVec.eq_of_getLsbD_eq
  intro j hj
  by_cases h8 : j < 8
  · simp [loByte, hiByte, hj, h8]
  · simp [loByte, BitVec.getLsbD_of_ge c (8 + j) (by omega),
      BitVec.getLsbD_of_ge (hiByte c) j (by omega)]

theorem crcUpdate_zeroExtend_self (b : Byte) : crcUpdate (b.zeroExtend 16) b = 0 := by
  rw [crcUpdate, BitVec.xor_self]
  rfl

theorem crc16_append (x y : List Byte) : crc16 (x ++ y) = y.foldl crcUpdate (crc16 x) :=
  List.foldl_append

theorem crc16_crcAppend (x : List Byte) : crc16 (crcAppend x) = 0 :=
  calc crc16 (crcAppend x)
      = crcUpdate (crcUpdate (crc16 x) (loByte (crc16 x))) (hiByte (crc16 x)) := crc16_append ..
    _ = 0 := by rw [crcUpdate_loByte, crcUpdate_zeroExtend_self]

end Sys2Proof.Machine
end

section
/-! PROOF. From the bytes of a frame to EXEC of its PDU (spec/41_mbap_tcp.md R151 to R153,
spec/42_rtu_crc.md R189, R194). -/

namespace Sys2Proof.Machine

/-! ### Runs -/

/-- `n` steps: `Host.Core.run` of the machine, at the machine's own types. -/
def runSteps (n : Nat) (s : State) : Host.Outcome State Fault Refusal := Sys2Proof.core.run n s

theorem runSteps_eq_core_run (n : Nat) (s : State) : runSteps n s = Sys2Proof.core.run n s := rfl

theorem runSteps_succ_congr {s t : State} (h : step s = step t) (n : Nat) :
    runSteps (n + 1) s = runSteps (n + 1) t := by
  simp only [runSteps, Host.Core.run]
  rw [show Sys2Proof.core.step s = Sys2Proof.core.step t from h]

theorem runSteps_succ_next {s t : State} (h : step s = .next t) (n : Nat) :
    runSteps (n + 1) s = runSteps n t := by
  simp only [runSteps, Host.Core.run]
  rw [show Sys2Proof.core.step s = .next t from h]

theorem runSteps_succ_fault {s : State} {f : Fault} (h : step s = .fault f) (n : Nat) :
    runSteps (n + 1) s = .fault f := by
  simp only [runSteps, Host.Core.run]
  rw [show Sys2Proof.core.step s = .fault f from h]
  rfl

theorem runSteps_succ_refused {s : State} {r : Refusal} (h : step s = .refused r) (n : Nat) :
    runSteps (n + 1) s = .refused r := by
  simp only [runSteps, Host.Core.run]
  rw [show Sys2Proof.core.step s = .refused r from h]
  rfl

theorem runSteps_one (s : State) : runSteps 1 s = step s := by
  cases h : step s with
  | next t => exact runSteps_succ_next h 0
  | fault f => exact runSteps_succ_fault h 0
  | refused r => exact runSteps_succ_refused h 0

theorem runSteps_add {s t : State} {m : Nat} (h : runSteps m s = .next t) (n : Nat) :
    runSteps (m + n) s = runSteps n t := by
  induction m generalizing s with
  | zero =>
    obtain rfl := Host.Outcome.next.inj h
    rw [Nat.zero_add]
  | succ m ih =>
    cases hs : step s with
    | next s' =>
      rw [runSteps_succ_next hs] at h
      rw [Nat.add_right_comm, runSteps_succ_next hs, ih h]
    | fault f =>
      rw [runSteps_succ_fault hs] at h
      cases h
    | refused r =>
      rw [runSteps_succ_refused hs] at h
      cases h

/-! ### Bytes that complete nothing -/

/-- The session with the bytes `xs` collected: they join the buffer, and on RTU run through the CRC
register (spec/41_mbap_tcp.md R151, R153, spec/42_rtu_crc.md R189). -/
def Engine.collected (E : Engine) (xs : List Byte) : Engine :=
  { E with
    buf := E.buf ++ xs
    crc := match E.mode with
      | .tcp => E.crc
      | .rtu => xs.foldl crcUpdate E.crc }

/-- The next `n` bytes complete nothing: neither a header, nor a PDU, nor an oversized frame. -/
def Engine.RoomFor (E : Engine) (n : Nat) : Prop :=
  (E.mode = .tcp ∧ E.phase = .tcpHdr ∧ E.buf.length + n < 7) ∨
  (E.mode = .tcp ∧ E.phase = .tcpBody ∧ ∃ h, E.hdr = some h ∧ E.buf.length + n < h.len.toNat - 1) ∨
  (E.mode = .rtu ∧ E.phase = .rtuRecv ∧ E.buf.length + n ≤ Config.rtuFrameMax)

theorem collected_tcp {E : Engine} (hm : E.mode = .tcp) (xs : List Byte) :
    E.collected xs = { E with buf := E.buf ++ xs } := by
  simp only [Engine.collected, hm]

theorem collected_rtu {E : Engine} (hm : E.mode = .rtu) (xs : List Byte) :
    E.collected xs = { E with buf := E.buf ++ xs, crc := xs.foldl crcUpdate E.crc } := by
  simp only [Engine.collected, hm]

theorem collected_nil (E : Engine) : E.collected [] = E := by
  cases hm : E.mode with
  | tcp => rw [collected_tcp hm, List.append_nil]
  | rtu => rw [collected_rtu hm, List.append_nil, List.foldl_nil]

theorem collected_cons (E : Engine) (b : Byte) (xs : List Byte) :
    E.collected (b :: xs) = (E.collected [b]).collected xs := by
  cases hm : E.mode <;> simp [Engine.collected, hm]

theorem Engine.RoomFor.collected {E : Engine} {n : Nat} (h : E.RoomFor (n + 1)) (b : Byte) :
    (E.collected [b]).RoomFor n := by
  unfold Engine.RoomFor Engine.collected
  simp only [List.length_append, List.length_singleton, Nat.add_right_comm _ 1 n]
  exact h

section

variable {E : Engine} {b : Byte}

theorem itemRule_headerByte (hm : E.mode = .tcp) (hp : E.phase = .tcpHdr) (u : State) :
    itemRule E (.byte b) u = .next (u.setEngine (E.headerByte b)) := by
  simp only [itemRule, hm, tcpItem, hp]

theorem itemRule_bodyByte (hm : E.mode = .tcp) (hp : E.phase = .tcpBody) (u : State) :
    itemRule E (.byte b) u = tcpBodyByte E b u := by
  simp only [itemRule, hm, tcpItem, hp]

theorem itemRule_rtuByte (hm : E.mode = .rtu) (hp : E.phase = .rtuRecv) (u : State) :
    itemRule E (.byte b) u = .next (u.setEngine (E.rtuByte b)) := by
  simp only [itemRule, hm, rtuItem, hp]

theorem itemRule_gap (hm : E.mode = .rtu) (hp : E.phase = .rtuRecv) (u : State) :
    itemRule E .gap u = rtuGap E u := by
  simp only [itemRule, hm, rtuItem, hp]

/-- A byte for which there is room is collected. -/
theorem itemRule_collects {n : Nat} (h : E.RoomFor (n + 1)) (u : State) :
    itemRule E (.byte b) u = .next (u.setEngine (E.collected [b])) := by
  obtain ⟨hm, hp, hn⟩ | ⟨hm, hp, hd, hh, hn⟩ | ⟨hm, hp, hn⟩ := h
  · have h7 : (E.buf ++ [b]).length ≠ 7 := by simp; omega
    rw [itemRule_headerByte hm hp, collected_tcp hm]
    simp only [Engine.headerByte, if_neg h7]
  · have hlen : (E.buf ++ [b]).length ≠ hd.len.toNat - 1 := by simp; omega
    rw [itemRule_bodyByte hm hp, collected_tcp hm]
    simp only [tcpBodyByte, hh, if_neg hlen]
  · have hlt : E.buf.length < Config.rtuFrameMax := by omega
    rw [itemRule_rtuByte hm hp, collected_rtu hm]
    simp only [Engine.rtuByte, if_pos hlt, List.foldl_cons, List.foldl_nil]

/-! ### The item that completes a frame or its header -/

/-- The seventh byte of a valid header latches it (spec/41_mbap_tcp.md R151, R152). -/
theorem itemRule_headerByte_valid {h : MbapHdr} (hm : E.mode = .tcp) (hp : E.phase = .tcpHdr)
    (hlen : (E.buf ++ [b]).length = 7) (hh : headerOf (E.buf ++ [b]) = h)
    (hv : headerValid h = true) (u : State) :
    itemRule E (.byte b) u = .next (u.setEngine
      { E with buf := [], crc := crcInit, phase := .tcpBody, hdr := some h }) := by
  subst hh
  rw [itemRule_headerByte hm hp]
  simp only [Engine.headerByte, if_pos hlen, if_pos hv]
  rfl

/-- The byte that completes a PDU of the latched length runs it (spec/41_mbap_tcp.md R153). -/
theorem itemRule_bodyByte_last {h : MbapHdr} (hm : E.mode = .tcp) (hp : E.phase = .tcpBody)
    (hh : E.hdr = some h) (hlen : (E.buf ++ [b]).length = h.len.toNat - 1) (u : State) :
    itemRule E (.byte b) u =
      execPdu (E.buf ++ [b]) (u.setEngine { E with buf := E.buf ++ [b] }) := by
  rw [itemRule_bodyByte hm hp]
  simp only [tcpBodyByte, hh, if_pos hlen]

/-- The gap after a frame whose CRC passes runs its PDU (spec/42_rtu_crc.md R194). -/
theorem itemRule_gap_complete (hm : E.mode = .rtu) (hp : E.phase = .rtuRecv)
    (h4 : 4 ≤ E.buf.length) (hcrc : crc16 E.buf = 0) (u : State) :
    itemRule E .gap u = execPdu (rtuPdu E.buf) (u.setEngine E) := by
  have hmin : ¬E.buf.length < Config.rtuFrameMin := Nat.not_lt.mpr h4
  rw [itemRule_gap hm hp, rtuGap, if_neg (by omega), if_neg hmin,
    if_pos (by simp [crcPasses, hcrc])]

end

/-! ### The turns of a session -/

/-- `s` in a step of session `k`, which is `E`, with the events `evs` to come. -/
abbrev State.turn (s : State) (k : Nat) (E : Engine) (evs : List Event) : State :=
  withEngine { s with schedule := evs } k E

theorem turn_setEngine (s : State) (k : Nat) (E F : Engine) (evs : List Event) :
    (s.turn k E evs).setEngine F = s.turn k F evs := by
  simp [State.setEngine, withEngine]

section

variable {s : State} {k : Nat} {E : Engine} {item : Item} {more : List Item} {rest : List Event}

theorem step_receiving (hs : s.schedule = .consume k :: rest) (hr : Receiving s k E item more) :
    step s = itemRule { E with input := more } item { s with cur := k, schedule := rest } := by
  rw [step_event hs]
  exact consume_receiving (s := { s with schedule := rest }) hr

theorem step_turn (hk : k < s.engines.length) (ho : E.sess = .opened) (ht : E.txPending = none)
    (hi : E.input = item :: more) :
    step (s.turn k E (.consume k :: rest)) =
      itemRule { E with input := more } item (s.turn k E rest) :=
  step_receiving rfl ⟨by simp [hk], ho, ht, hi⟩

theorem turn_of_getElem? (hE : s.engines[k]? = some E) (evs : List Event) :
    s.turn k E evs = { s with cur := k, schedule := evs } := by
  obtain ⟨hk, rfl⟩ := List.getElem?_eq_some_iff.mp hE
  simp only [State.turn, withEngine, List.set_getElem_self]

/-- Where session `k` has the next step, it does not matter which one had the last (log 3). -/
theorem runSteps_eq_turn {n : Nat} (hr : Receiving s k E item more)
    (hs : s.schedule = List.replicate n (.consume k) ++ rest) (hn : n ≠ 0) :
    runSteps n s = runSteps n (s.turn k E (List.replicate n (.consume k) ++ rest)) := by
  obtain ⟨n, rfl⟩ := Nat.exists_eq_succ_of_ne_zero hn
  obtain ⟨hE, ho, ht, hi⟩ := hr
  refine runSteps_succ_congr ?_ n
  have hturn : Receiving { s with cur := k, schedule := List.replicate (n + 1) (.consume k) ++ rest }
    k E item more := ⟨hE, ho, ht, hi⟩
  rw [step_receiving hs ⟨hE, ho, ht, hi⟩, turn_of_getElem? hE, step_receiving rfl hturn]

/-- Bytes for which there is room are collected, one a step. -/
theorem runSteps_collected (hk : k < s.engines.length) {xs : List Byte} (ho : E.sess = .opened)
    (ht : E.txPending = none) (hroom : E.RoomFor xs.length)
    (hi : E.input = xs.map Item.byte ++ more) :
    runSteps xs.length (s.turn k E (List.replicate xs.length (.consume k) ++ rest)) =
      .next (s.turn k { E.collected xs with input := more } rest) := by
  induction xs generalizing E with
  | nil =>
    obtain rfl : E.input = more := hi
    rw [collected_nil]
    rfl
  | cons b xs ih =>
    have hroom' : Engine.RoomFor { E with input := xs.map Item.byte ++ more } (xs.length + 1) :=
      hroom
    have hstep := step_turn (rest := List.replicate xs.length (.consume k) ++ rest) hk ho ht hi
    rw [List.append_eq, itemRule_collects hroom', turn_setEngine] at hstep
    rw [collected_cons]
    exact (runSteps_succ_next hstep _).trans (ih ho ht (hroom'.collected b) rfl)

/-- The item after collected bytes is taken by its rule, in the last of their steps. -/
theorem runSteps_collected_item (hk : k < s.engines.length) {xs : List Byte}
    (ho : E.sess = .opened) (ht : E.txPending = none) (hroom : E.RoomFor xs.length)
    (hi : E.input = xs.map Item.byte ++ item :: more) :
    runSteps (xs.length + 1)
        (s.turn k E (List.replicate (xs.length + 1) (.consume k) ++ rest)) =
      itemRule { E.collected xs with input := more } item
        (s.turn k { E.collected xs with input := item :: more } rest) := by
  rw [List.replicate_succ', List.append_assoc,
    runSteps_add (runSteps_collected hk ho ht hroom hi), runSteps_one]
  exact step_turn hk ho ht rfl

/-! ### TCP -/

/-- A header is the seven bytes it is read from (spec/30_encoding.md R102). -/
theorem headerOf_bytes (h : MbapHdr) :
    headerOf (BE16 h.tid ++ BE16 h.pid ++ BE16 h.len ++ [h.uid]) = h := by
  simp [headerOf, BE16, be16]

/-- The seven bytes of a valid header, consumed at a frame boundary, are latched. -/
theorem runSteps_header (hk : k < s.engines.length) (ho : E.sess = .opened)
    (ht : E.txPending = none) (hm : E.mode = .tcp) (hp : E.phase = .tcpHdr) (hb : E.buf = [])
    {h : MbapHdr} (hv : headerValid h = true)
    (hi : E.input = (BE16 h.tid ++ BE16 h.pid ++ BE16 h.len ++ [h.uid]).map Item.byte ++ more) :
    runSteps 7 (s.turn k E (List.replicate 7 (.consume k) ++ rest)) =
      .next (s.turn k
        { E with input := more, buf := [], crc := crcInit, phase := .tcpBody, hdr := some h }
        rest) := by
  have h6 : (BE16 h.tid ++ BE16 h.pid ++ BE16 h.len).length = 6 := rfl
  have hroom : E.RoomFor (BE16 h.tid ++ BE16 h.pid ++ BE16 h.len).length :=
    .inl ⟨hm, hp, by rw [hb, h6]; decide⟩
  have hrun := runSteps_collected_item (s := s) (rest := rest) (more := more) (item := .byte h.uid)
    hk ho ht hroom (by simpa using hi)
  rw [collected_tcp hm, hb, List.nil_append, h6] at hrun
  refine hrun.trans (Eq.trans (itemRule_headerByte_valid ?_ ?_ ?_ ?_ hv _) ?_)
  · exact hm
  · exact hp
  · rfl
  · exact headerOf_bytes h
  · rw [turn_setEngine]

/-- The bytes of a PDU of the latched length, consumed in TCP_BODY, end in EXEC of that PDU. -/
theorem runSteps_body (hk : k < s.engines.length) (ho : E.sess = .opened)
    (ht : E.txPending = none) (hm : E.mode = .tcp) (hp : E.phase = .tcpBody) (hb : E.buf = [])
    {h : MbapHdr} (hh : E.hdr = some h) {pdu : List Byte} (hne : pdu ≠ [])
    (hlen : h.len.toNat = 1 + pdu.length) (hi : E.input = pdu.map Item.byte ++ more) :
    runSteps pdu.length (s.turn k E (List.replicate pdu.length (.consume k) ++ rest)) =
      execPdu pdu (s.turn k { E with input := more, buf := pdu } rest) := by
  obtain ⟨body, last, rfl⟩ := (List.eq_nil_or_concat' pdu).resolve_left hne
  rw [List.length_append, List.length_singleton] at hlen ⊢
  have hroom : E.RoomFor body.length := .inr (.inl ⟨hm, hp, h, hh, by rw [hb]; simp; omega⟩)
  have hrun := runSteps_collected_item (s := s) (rest := rest) (more := more) (item := .byte last)
    hk ho ht hroom (by simpa using hi)
  rw [collected_tcp hm, hb, List.nil_append] at hrun
  refine hrun.trans ((itemRule_bodyByte_last (h := h) ?_ ?_ ?_ ?_ _).trans ?_)
  · exact hm
  · exact hp
  · exact hh
  · simp
    omega
  · rw [turn_setEngine]

/-! ### RTU -/

theorem rtuPdu_encodeRtu (uid : Byte) (pdu : List Byte) : rtuPdu (encodeRtu uid pdu) = pdu := by
  have hlen : (encodeRtu uid pdu).length - 3 = pdu.length := by simp
  rw [rtuPdu, hlen]
  simp [encodeRtu, crcAppend]

/-- The bytes of an RTU frame and the gap, consumed with nothing buffered, end in EXEC of its PDU. -/
theorem runSteps_rtuFrame (hk : k < s.engines.length) (ho : E.sess = .opened)
    (ht : E.txPending = none) (hm : E.mode = .rtu) (hp : E.phase = .rtuRecv) (hb : E.buf = [])
    (hc : E.crc = crcInit) {uid : Byte} {pdu : List Byte} (h1 : 1 ≤ pdu.length)
    (h253 : pdu.length ≤ 253)
    (hi : E.input = (encodeRtu uid pdu).map Item.byte ++ .gap :: more) :
    runSteps (pdu.length + 4)
        (s.turn k E (List.replicate (pdu.length + 4) (.consume k) ++ rest)) =
      execPdu pdu (s.turn k { E with input := more, buf := encodeRtu uid pdu, crc := 0 } rest) := by
  have hlen : (encodeRtu uid pdu).length = pdu.length + 3 := by rw [encodeRtu_length, Nat.add_comm]
  have hcrc : crc16 (encodeRtu uid pdu) = 0 := crc16_crcAppend _
  have hroom : E.RoomFor (encodeRtu uid pdu).length :=
    .inr (.inr ⟨hm, hp, by rw [hb, hlen, Config.rtuFrameMax]; simp; omega⟩)
  have hrun := runSteps_collected_item (s := s) (rest := rest) hk ho ht hroom hi
  rw [collected_rtu hm, hb, List.nil_append, hc, ← crc16, hcrc, hlen] at hrun
  refine hrun.trans ((itemRule_gap_complete ?_ ?_ ?_ hcrc _).trans ?_)
  · exact hm
  · exact hp
  · simp only [hlen]
    omega
  · rw [turn_setEngine, rtuPdu_encodeRtu]

end

/-! ### From the wire to EXEC -/

theorem execPdu_of_decode {pdu : List Byte} {i : Instr} (h : decode pdu = .ok i) (u : State) :
    execPdu pdu u = exec i u := by
  simp only [execPdu, h]

/-- The header of a frame whose PDU has 1 to 253 bytes is accepted (spec/41_mbap_tcp.md R152). -/
theorem headerValid_of_length (tid : Word) (uid : Byte) {n : Nat} (h1 : 1 ≤ n) (h253 : n ≤ 253) :
    headerValid ⟨tid, 0, BitVec.ofNat 16 (1 + n), uid⟩ = true := by
  have hlen : (BitVec.ofNat 16 (1 + n)).toNat = 1 + n := toNat_ofNat_of_lt (by omega)
  simp only [headerValid, Bool.and_eq_true, bne_iff_ne, ne_eq, decide_eq_true_iff, hlen,
    Config.tcpPduMax, ← BitVec.toNat_inj]
  exact ⟨⟨⟨rfl, by simp⟩, by simp; omega⟩, by omega⟩

/-- Settles O51: the header is latched, then the body is executed. -/
theorem tcpFrameBytesLeadToItsRequest : Obligations.TcpFrameBytesLeadToItsRequest := by
  unfold Obligations.TcpFrameBytesLeadToItsRequest
  intro s k E tid uid pdu more rest i h1 h253 hdec hE ho ht hm hp hb hi hs
  have hk : k < s.engines.length := (List.getElem?_eq_some_iff.mp hE).1
  have hne : pdu ≠ [] := List.ne_nil_of_length_pos h1
  have hlen : (BitVec.ofNat 16 (1 + pdu.length)).toNat = 1 + pdu.length :=
    toNat_ofNat_of_lt (by omega)
  have hheader := runSteps_header (s := s) (rest := List.replicate pdu.length (.consume k) ++ rest)
    (more := pdu.map Item.byte ++ more) hk ho ht hm hp hb (headerValid_of_length tid uid h1 h253)
    (by simp [hi, encodeTcp])
  rw [← List.append_assoc, ← List.replicate_add] at hheader
  rw [← runSteps_eq_core_run, runSteps_eq_turn ⟨hE, ho, ht, hi⟩ hs (by omega), runSteps_add hheader,
    runSteps_body hk _ _ _ rfl rfl rfl hne hlen rfl, execPdu_of_decode hdec]
  · rfl
  · exact ho
  · exact ht
  · exact hm

/-- Settles O52: the frame is collected, and the gap finds it complete, its CRC register at 0. -/
theorem rtuFrameBytesLeadToItsRequest : Obligations.RtuFrameBytesLeadToItsRequest := by
  unfold Obligations.RtuFrameBytesLeadToItsRequest
  intro s k E uid pdu more rest i h1 h253 hdec hE ho ht hm hp hb hc hi hs
  have hk : k < s.engines.length := (List.getElem?_eq_some_iff.mp hE).1
  rw [← runSteps_eq_core_run, runSteps_eq_turn ⟨hE, ho, ht, hi⟩ hs (by omega),
    runSteps_rtuFrame hk ho ht hm hp hb hc h1 h253 hi]
  exact execPdu_of_decode hdec _

end Sys2Proof.Machine
end

section
/-! PROOF. The decoder with its exceptions is the pseudocode of spec/40_pdu_codec.md R130: an unsupported
code raises IllegalFunction (R132), every failed check of a supported one IllegalDataValue (R133). -/

namespace Sys2Proof.Machine

variable {fc : Byte} {fields : List Byte}

/-! ### The two exceptions of the codec -/

theorem decodeExc_eq_illegalDataValue (e : DecodeError) : decodeExc e = .illegalDataValue := by
  cases e <;> rfl

theorem decodeRequest_unsupported (h : supportedFcs.contains fc = false) :
    decodeRequest (fc :: fields) = .error .illegalFunction := by
  have hfc : (if fc.msb then Instr.unsupportedBit7 fc fields
      else .unsupportedDefault fc fields).fc = fc := by
    split <;> rfl
  simp only [decodeRequest, decode, decodeFc_unsupported h, hfc, h, Bool.false_eq_true, if_false]

/-- With a supported code, the codec is the field decoder of that code. -/
theorem decodeRequest_supported (h : supportedFcs.contains fc = true) :
    decodeRequest (fc :: fields) = (decodeFc fc fields).mapError fun _ => .illegalDataValue := by
  cases hd : decodeFc fc fields with
  | error e => simp only [decodeRequest, decode, hd, decodeExc_eq_illegalDataValue, Except.mapError]
  | ok i =>
    obtain ⟨-, hfc, -⟩ := decodeFc_sound hd
    simp only [decodeRequest, decode, hd, hfc, h, if_true, Except.mapError]

/-- Only a supported code has a check to fail. -/
theorem decodeRequest_of_decodeFc_error {e : DecodeError} (h : decodeFc fc fields = .error e) :
    decodeRequest (fc :: fields) = .error .illegalDataValue := by
  simp only [decodeRequest, decode, h, decodeExc_eq_illegalDataValue]

theorem decodeRequest_illegalFunction_iff :
    decodeRequest (fc :: fields) = .error .illegalFunction ↔ supportedFcs.contains fc = false := by
  cases hs : supportedFcs.contains fc with
  | false => simp only [decodeRequest_unsupported hs]
  | true =>
    rw [decodeRequest_supported hs]
    cases decodeFc fc fields <;> simp [Except.mapError]

/-- Settles O5: the exception says whether the code is in the set, and the set is the numbers 1 to 6, 15
and 16. -/
theorem exactlyTheUnsupportedCodesRaiseIllegalFunction :
    Obligations.ExactlyTheUnsupportedCodesRaiseIllegalFunction := by
  unfold Obligations.ExactlyTheUnsupportedCodesRaiseIllegalFunction
  constructor
  · intro fc rest
    rw [decodeRequest_illegalFunction_iff, ← List.contains_iff_mem, Bool.not_eq_true]
  · intro fc
    rw [← List.contains_iff_mem, mem_supportedFcs_iff]
    bv_omega

/-! ### Lengths other than the format's -/

theorem decodeTwoFields_badLength {mk : Word → Word → Instr} (h : fields.length ≠ 4) :
    decodeTwoFields mk fields = .error .badLength := by
  unfold decodeTwoFields
  split
  · exact absurd rfl h
  · rfl

theorem decodeCoil_badLength (h : fields.length ≠ 4) : decodeCoil fields = .error .badLength := by
  unfold decodeCoil
  split
  · exact absurd rfl h
  · rfl

theorem decodeMultiple_short {need : Word → Nat} {mk : Word → Word → Byte → List Byte → Instr}
    (h : fields.length < 5) : decodeMultiple need mk fields = .error .badLength := by
  unfold decodeMultiple
  split
  · simp only [List.length_cons] at h
    omega
  · rfl

theorem decodeMultiple_badLength {need : Word → Nat} {mk : Word → Word → Byte → List Byte → Instr}
    {a b c d bc : Byte} {data : List Byte} (h : data.length ≠ bc.toNat) :
    decodeMultiple need mk (a :: b :: c :: d :: bc :: data) = .error .badLength := if_pos h

/-- FC1 to FC6 are formats RB and WS (spec/30_encoding.md R93, R94). -/
theorem decodeFc_badLength (hfc : fc ∈ ([0x01, 0x02, 0x03, 0x04, 0x05, 0x06] : List Byte))
    (h : fields.length ≠ 4) : decodeFc fc fields = .error .badLength := by
  simp only [List.mem_cons, List.not_mem_nil, or_false] at hfc
  obtain rfl | rfl | rfl | rfl | rfl | rfl := hfc
  · exact decodeTwoFields_badLength h
  · exact decodeTwoFields_badLength h
  · exact decodeTwoFields_badLength h
  · exact decodeTwoFields_badLength h
  · exact decodeCoil_badLength h
  · exact decodeTwoFields_badLength h

/-- FC15 and FC16 are format WM (spec/30_encoding.md R95). -/
theorem decodeFc_eq_decodeMultiple (hfc : fc ∈ ([0x0F, 0x10] : List Byte)) :
    ∃ need mk, decodeFc fc = decodeMultiple need mk := by
  simp only [List.mem_cons, List.not_mem_nil, or_false] at hfc
  obtain rfl | rfl := hfc
  · exact ⟨coilBytes, .writeMultipleCoils, rfl⟩
  · exact ⟨registerBytes, .writeMultipleRegisters, rfl⟩

/-- Settles O4: the field decoder of each format rejects the length. -/
theorem wrongLengthRaisesIllegalDataValue : Obligations.WrongLengthRaisesIllegalDataValue := by
  unfold Obligations.WrongLengthRaisesIllegalDataValue
  refine ⟨?_, ?_, ?_⟩
  · intro fc rest hfc h
    exact decodeRequest_of_decodeFc_error (decodeFc_badLength hfc h)
  · intro fc rest hfc h
    obtain ⟨need, mk, hdec⟩ := decodeFc_eq_decodeMultiple hfc
    exact decodeRequest_of_decodeFc_error (by rw [hdec, decodeMultiple_short h])
  · intro fc a b c d bc data hfc h
    obtain ⟨need, mk, hdec⟩ := decodeFc_eq_decodeMultiple hfc
    exact decodeRequest_of_decodeFc_error (by rw [hdec, decodeMultiple_badLength h])

/-! ### The pseudocode of R130, format by format

Each field decoder matches on the bytes after the code; the pseudocode reads the whole PDU `p` by `p[i]` and
`len(p)`. -/

theorem decodeTwoFields_eq_byRule (fc : Byte) (mk : Word → Word → Instr) (fields : List Byte) :
    ((decodeTwoFields mk fields).mapError fun _ => WireExc.illegalDataValue) =
      if (fc :: fields).length ≠ 5 then .error .illegalDataValue
      else .ok (mk (be16 (fc :: fields) 1) (be16 (fc :: fields) 3)) := by
  by_cases h : fields.length = 4
  · obtain ⟨a, b, c, d, rfl⟩ := List.length_eq_four.mp h
    rfl
  · rw [decodeTwoFields_badLength h, if_pos (by simpa using h)]
    rfl

theorem coilCodes_contains_iff {v : Word} :
    coilCodes.contains v = true ↔ ¬(v ≠ 0xFF00 ∧ v ≠ 0x0000) := by
  rw [not_and_or, not_not, not_not]
  simp [coilCodes]

theorem decodeCoil_eq_byRule (fc : Byte) (fields : List Byte) :
    (decodeCoil fields).mapError (fun _ => WireExc.illegalDataValue) =
      if (fc :: fields).length ≠ 5 then .error .illegalDataValue
      else if be16 (fc :: fields) 3 ≠ 0xFF00 ∧ be16 (fc :: fields) 3 ≠ 0x0000 then
        .error .illegalDataValue
      else .ok (.writeSingleCoil (be16 (fc :: fields) 1) (be16 (fc :: fields) 3)) := by
  by_cases h : fields.length = 4
  · obtain ⟨a, b, c, d, rfl⟩ := List.length_eq_four.mp h
    by_cases hv : coilCodes.contains (ofBE16 c d) = true
    · rw [decodeCoil, if_pos hv]
      exact (if_neg (coilCodes_contains_iff.mp hv)).symm
    · rw [decodeCoil, if_neg hv]
      exact (if_pos (not_not.mp (mt coilCodes_contains_iff.mpr hv))).symm
  · rw [decodeCoil_badLength h, if_pos (by simpa using h)]
    rfl

theorem decodeMultiple_eq_byRule (fc : Byte) (need : Word → Nat)
    (mk : Word → Word → Byte → List Byte → Instr) (fields : List Byte) :
    (decodeMultiple need mk fields).mapError (fun _ => WireExc.illegalDataValue) =
      if (fc :: fields).length < 6 then .error .illegalDataValue
      else if (fc :: fields).length ≠ 6 + ((fc :: fields).getD 5 0).toNat then .error .illegalDataValue
      else if ((fc :: fields).getD 5 0).toNat ≠ need (be16 (fc :: fields) 3) then
        .error .illegalDataValue
      else .ok (mk (be16 (fc :: fields) 1) (be16 (fc :: fields) 3) ((fc :: fields).getD 5 0)
        ((fc :: fields).drop 6)) := by
  match fields with
  | [] | [_] | [_, _] | [_, _, _] | [_, _, _, _] => rfl
  | a :: b :: c :: d :: bc :: data =>
    have hshort : ¬(fc :: a :: b :: c :: d :: bc :: data).length < 6 := by simp
    have hlen : (fc :: a :: b :: c :: d :: bc :: data).length ≠ 6 + bc.toNat ↔
        data.length ≠ bc.toNat := by
      simp only [List.length_cons]
      omega
    have hqty : be16 (fc :: a :: b :: c :: d :: bc :: data) 3 = ofBE16 c d := rfl
    rw [decodeMultiple, if_neg hshort]
    simp only [List.getD_cons_succ, List.getD_cons_zero, hlen, hqty]
    split_ifs <;> rfl

/-- Settles O3: by the supported code, whose format the pseudocode transcribes. -/
theorem decoderIsThePseudocodeOfTheCodec : Obligations.DecoderIsThePseudocodeOfTheCodec := by
  unfold Obligations.DecoderIsThePseudocodeOfTheCodec
  intro p hp
  obtain ⟨fc, fields, rfl⟩ := List.exists_cons_of_ne_nil hp
  cases hs : supportedFcs.contains fc with
  | false =>
    have hfc : fc ∉ supportedFcs := by rwa [← List.contains_iff_mem, Bool.not_eq_true]
    rw [decodeRequest_unsupported hs]
    exact (if_pos hfc).symm
  | true =>
    rw [decodeRequest_supported hs]
    obtain rfl | rfl | rfl | rfl | rfl | rfl | rfl | rfl := mem_supportedFcs_iff.mp hs
    · exact decodeTwoFields_eq_byRule 0x01 .readCoils fields
    · exact decodeTwoFields_eq_byRule 0x02 .readDiscreteInputs fields
    · exact decodeTwoFields_eq_byRule 0x03 .readHoldingRegisters fields
    · exact decodeTwoFields_eq_byRule 0x04 .readInputRegisters fields
    · exact decodeCoil_eq_byRule 0x05 fields
    · exact decodeTwoFields_eq_byRule 0x06 .writeSingleRegister fields
    · exact decodeMultiple_eq_byRule 0x0F coilBytes .writeMultipleCoils fields
    · exact decodeMultiple_eq_byRule 0x10 registerBytes .writeMultipleRegisters fields

end Sys2Proof.Machine
end

section
/-! PROOF. The bytes of a response frame (spec/41_mbap_tcp.md R158, spec/42_rtu_crc.md R185, R196). -/

namespace Sys2Proof.Machine

/-- The parser reads a frame's header back from the encoder's bytes (spec/30_encoding.md R102). -/
theorem headerOf_encodeTcp (tid : Word) (uid : Byte) (r : List Byte) :
    headerOf (encodeTcp tid uid r) = ⟨tid, 0, BitVec.ofNat 16 (1 + r.length), uid⟩ :=
  headerOf_bytes ⟨tid, 0, BitVec.ofNat 16 (1 + r.length), uid⟩

theorem crcMatches_crcAppend (x : List Byte) : crcMatches (crcAppend x) = true := by
  simp [crcMatches, crcAppend, LE16]

/-- Settles O35: on TCP the header is the parser's reading of the frame; on RTU the frame is the unit
id, the PDU and their CRC. -/
theorem responseFrameLayout : Obligations.ResponseFrameLayout := by
  unfold Obligations.ResponseFrameLayout
  constructor
  · intro tid uid r hr
    have hhdr := headerOf_encodeTcp tid uid r
    have hlen : (BitVec.ofNat 16 (1 + r.length)).toNat = 1 + r.length :=
      toNat_ofNat_of_lt (by omega)
    exact ⟨congrArg MbapHdr.tid hhdr, congrArg MbapHdr.pid hhdr,
      (congrArg (fun h => h.len.toNat) hhdr).trans hlen, rfl, rfl⟩
  · intro uid r
    exact ⟨rfl, rtuPdu_encodeRtu uid r, by rw [encodeRtu_length, Nat.add_comm],
      crcMatches_crcAppend _⟩

end Sys2Proof.Machine
end

section
/-! PROOF. One item of a session's stream in a step: header, body and end of stream on TCP
(spec/41_mbap_tcp.md R151 to R157), and the item that completes a frame (R153,
spec/42_rtu_crc.md R194). -/

namespace Sys2Proof.Machine

variable {s : State} {k : Nat} {E F : Engine} {item : Item} {more : List Item} {rest : List Event}
  {b : Byte} {h : MbapHdr}

/-- Where the item's rule goes on from its instance replaced by `F`, so does the step that takes the
item: `next` is EXEC of a PDU, or the next state itself. -/
theorem step_of_itemRule {next : State → Host.Outcome State Fault Refusal}
    (hs : s.schedule = .consume k :: rest) (hr : Receiving s k E item more)
    (hrule : ∀ u, itemRule { E with input := more } item u = next (u.setEngine F)) :
    step s = next (withEngine { s with schedule := rest } k F) :=
  (step_receiving hs hr).trans (hrule _)

/-! ### A header byte (R151, R152, R157) -/

theorem headerValid_iff :
    headerValid h = true ↔ h.pid = 0 ∧ 2 ≤ h.len.toNat ∧ h.len.toNat ≤ 254 := by
  simp only [headerValid, Bool.and_eq_true, beq_iff_eq, bne_iff_ne, ne_eq, decide_eq_true_iff]
  rw [Config.tcpPduMax]
  bv_omega

theorem itemRule_headerByte_collects (hm : E.mode = .tcp) (hp : E.phase = .tcpHdr)
    (hlen : E.buf.length ≠ 6) (u : State) :
    itemRule E (.byte b) u = .next (u.setEngine { E with buf := E.buf ++ [b] }) := by
  have h7 : (E.buf ++ [b]).length ≠ 7 := by simpa using hlen
  rw [itemRule_headerByte hm hp]
  simp only [Engine.headerByte, if_neg h7]

theorem itemRule_headerByte_rejected (hm : E.mode = .tcp) (hp : E.phase = .tcpHdr)
    (hlen : (E.buf ++ [b]).length = 7) (hh : headerOf (E.buf ++ [b]) = h)
    (hv : ¬headerValid h = true) (u : State) :
    itemRule E (.byte b) u = .next (u.setEngine (Engine.frameError { E with hdr := some h })) := by
  subst hh
  rw [itemRule_headerByte hm hp]
  simp only [Engine.headerByte, if_pos hlen, if_neg hv]
  rfl

/-- Settles O43: a byte that is not the seventh is collected; the seventh latches the header, whose
validation decides. -/
theorem tcpHeaderByteCollectsThenValidates : Obligations.TcpHeaderByteCollectsThenValidates := by
  unfold Obligations.TcpHeaderByteCollectsThenValidates
  intro s k E b more rest hs hr hm hp
  refine ⟨fun hlen => ?_, fun x0 x1 x2 x3 x4 x5 hb => ?_⟩
  · exact step_of_itemRule hs hr
      (itemRule_headerByte_collects (E := { E with input := more }) hm hp hlen)
  · have hlen : (E.buf ++ [b]).length = 7 := by rw [hb]; rfl
    have hh : headerOf (E.buf ++ [b]) = ⟨x0 ++ x1, x2 ++ x3, x4 ++ x5, b⟩ := by rw [hb]; rfl
    refine ⟨fun hv => ?_, fun hv => ?_⟩
    · exact step_of_itemRule hs hr (itemRule_headerByte_valid (E := { E with input := more })
        hm hp hlen hh (headerValid_iff.mpr hv))
    · exact step_of_itemRule hs hr (itemRule_headerByte_rejected (E := { E with input := more })
        hm hp hlen hh (mt headerValid_iff.mp hv))

/-! ### The end of a TCP stream (R154, R155, R157) -/

theorem itemRule_eos_boundary (hm : E.mode = .tcp) (hp : E.phase = .tcpHdr) (hb : E.buf = [])
    (u : State) : itemRule E .eos u = .next (u.setEngine (E.close .closedEos)) := by
  simp only [itemRule, hm, tcpItem, hp, Engine.headerEos, hb]

theorem itemRule_eos_midHeader (hm : E.mode = .tcp) (hp : E.phase = .tcpHdr) (hb : E.buf ≠ [])
    (u : State) : itemRule E .eos u = .next (u.setEngine E.frameError) := by
  obtain ⟨x, xs, hx⟩ := List.exists_cons_of_ne_nil hb
  simp only [itemRule, hm, tcpItem, hp, Engine.headerEos, hx]

theorem itemRule_eos_midBody (hm : E.mode = .tcp) (hp : E.phase = .tcpBody) (u : State) :
    itemRule E .eos u = .next (u.setEngine E.frameError) := by
  simp only [itemRule, hm, tcpItem, hp]

/-- Settles O44: an empty header buffer is the frame boundary; mid-header and mid-body are the two
ways to be inside a frame. -/
theorem tcpEndOfStreamClosesTheSession : Obligations.TcpEndOfStreamClosesTheSession := by
  unfold Obligations.TcpEndOfStreamClosesTheSession
  intro s k E more rest hs hr hm
  constructor
  · intro hp hb
    exact step_of_itemRule hs hr (itemRule_eos_boundary (E := { E with input := more }) hm hp hb)
  · rintro (⟨hp, hb⟩ | hp)
    · exact step_of_itemRule hs hr (itemRule_eos_midHeader (E := { E with input := more }) hm hp hb)
    · exact step_of_itemRule hs hr (itemRule_eos_midBody (E := { E with input := more }) hm hp)

/-! ### A body byte, and the gap after a complete frame (R153, R194) -/

theorem itemRule_bodyByte_waits (hm : E.mode = .tcp) (hp : E.phase = .tcpBody) (hh : E.hdr = some h)
    (hlen : (E.buf ++ [b]).length ≠ h.len.toNat - 1) (u : State) :
    itemRule E (.byte b) u = .next (u.setEngine { E with buf := E.buf ++ [b] }) := by
  rw [itemRule_bodyByte hm hp]
  simp only [tcpBodyByte, hh, if_neg hlen]

theorem step_bodyByte_last (hs : s.schedule = .consume k :: rest)
    (hr : Receiving s k E (.byte b) more) (hm : E.mode = .tcp) (hp : E.phase = .tcpBody)
    (hh : E.hdr = some h) (hlen : E.buf.length + 1 = h.len.toNat - 1) :
    step s = execPdu (E.buf ++ [b]) (withEngine { s with schedule := rest } k
      { E with input := more, buf := E.buf ++ [b] }) :=
  step_of_itemRule hs hr
    (itemRule_bodyByte_last (E := { E with input := more }) hm hp hh (by simpa using hlen))

theorem step_gap_complete (hs : s.schedule = .consume k :: rest) (hr : Receiving s k E .gap more)
    (hm : E.mode = .rtu) (hp : E.phase = .rtuRecv) (h4 : 4 ≤ E.buf.length)
    (hcrc : crc16 E.buf = 0x0000) :
    step s = execPdu (rtuPdu E.buf) (withEngine { s with schedule := rest } k
      { E with input := more }) :=
  step_of_itemRule hs hr (itemRule_gap_complete (E := { E with input := more }) hm hp h4 hcrc)

/-- Settles O49: the last item's rule is `execPdu`, and before it a body byte is collected. -/
theorem stepTakesTheCodecExceptionOrWaits : Obligations.StepTakesTheCodecExceptionOrWaits := by
  unfold Obligations.StepTakesTheCodecExceptionOrWaits
  constructor
  · intro s k E b more rest h hs hr hm hp hh
    refine ⟨step_bodyByte_last hs hr hm hp hh, fun hlen => ?_⟩
    exact step_of_itemRule hs hr
      (itemRule_bodyByte_waits (E := { E with input := more }) hm hp hh (by simpa using hlen))
  · intro s k E more rest hs hr hm hp h4 hcrc
    exact step_gap_complete hs hr hm hp h4 hcrc

/-- Settles O48: `execPdu` of a PDU that decodes is `exec` of what it decodes to. -/
theorem stepRunsTheDecodedRequest : Obligations.StepRunsTheDecodedRequest := by
  unfold Obligations.StepRunsTheDecodedRequest
  constructor
  · intro s k E b more rest h i hs hr hm hp hh hlen hdec
    rw [step_bodyByte_last hs hr hm hp hh hlen, execPdu_of_decode hdec]
  · intro s k E more rest i hs hr hm hp h4 hcrc hdec
    rw [step_gap_complete hs hr hm hp h4 hcrc, execPdu_of_decode hdec]

end Sys2Proof.Machine
end

section
/-! PROOF. The CRC-16/MODBUS register is linear over XOR and loses nothing: the printed table, the two
forms of the frame check and single-bit errors (spec/42_rtu_crc.md R181 to R187). -/

namespace Sys2Proof.Machine

/-- Settles O8, by evaluating the loop on the spec's strings. -/
theorem crcCheckValues : Obligations.CrcCheckValues := by
  unfold Obligations.CrcCheckValues
  decide +kernel

/-! ### The shift is linear, so a table of 256 entries is enough (R183) -/

theorem crcShift_xor (c d : Word) : crcShift (c ^^^ d) = crcShift c ^^^ crcShift d := by
  have hcancel (p q r : Word) : p ^^^ q = p ^^^ r ^^^ (q ^^^ r) :=
    calc p ^^^ q = p ^^^ q ^^^ (r ^^^ r) := by rw [BitVec.xor_self, BitVec.xor_zero]
      _ = p ^^^ r ^^^ (q ^^^ r) := by ac_rfl
  simp only [crcShift, BitVec.getLsbD_xor, BitVec.ushiftRight_xor_distrib]
  cases c.getLsbD 0 <;> cases d.getLsbD 0
  · rfl
  · exact BitVec.xor_assoc ..
  · exact (by ac_rfl : c >>> 1 ^^^ d >>> 1 ^^^ 0xA001 = c >>> 1 ^^^ 0xA001 ^^^ d >>> 1)
  · exact hcancel ..

theorem crcShifts_xor (n : Nat) (c d : Word) :
    crcShifts n (c ^^^ d) = crcShifts n c ^^^ crcShifts n d := by
  induction n generalizing c d with
  | zero => rfl
  | succ n ih => simp only [crcShifts, crcShift_xor, ih]

theorem crcTable_getElem? (i : Nat) (hi : i < 256) :
    crcTable[i]? = some (crcUpdate 0x0000 (BitVec.ofNat 8 i)) := by
  decide +kernel +revert

/-- The index of the table-driven step is the low byte of the register (R183). -/
theorem toNat_and_0xFF (c : Word) : (c &&& 0xFF).toNat = (loByte c).toNat := by
  simp [loByte, Nat.and_two_pow_sub_one_eq_mod c.toNat 8]

theorem zeroExtend_hiByte (c : Word) : (hiByte c).zeroExtend 16 = c >>> 8 := by
  apply BitVec.eq_of_toNat_eq
  simp [hiByte, Nat.shiftRight_eq_div_pow]
  omega

theorem zeroExtend_ushiftRight_eight (b : Byte) : b.zeroExtend 16 >>> 8 = 0 := by
  apply BitVec.eq_of_toNat_eq
  simp [Nat.shiftRight_eq_div_pow]
  omega

/-- Eight shifts move the high byte down and add the entry of the low byte. -/
theorem crcShifts_eight (c : Word) : crcShifts 8 c = c >>> 8 ^^^ crcUpdate 0 (loByte c) :=
  calc crcShifts 8 c
      = crcShifts 8 (c ^^^ (loByte c).zeroExtend 16 ^^^ (0#16 ^^^ (loByte c).zeroExtend 16)) := by
        rw [BitVec.zero_xor, BitVec.xor_assoc, BitVec.xor_self, BitVec.xor_zero]
    _ = crcUpdate c (loByte c) ^^^ crcUpdate 0 (loByte c) := crcShifts_xor ..
    _ = c >>> 8 ^^^ crcUpdate 0 (loByte c) := by rw [crcUpdate_loByte, zeroExtend_hiByte]

theorem crcTableStep_eq_crcUpdate (c : Word) (b : Byte) : crcTableStep c b = crcUpdate c b := by
  have hhigh : (c ^^^ b.zeroExtend 16) >>> 8 = c >>> 8 := by
    rw [BitVec.ushiftRight_xor_distrib, zeroExtend_ushiftRight_eight]
    exact BitVec.xor_zero
  have hentry := crcTable_getElem? (loByte (c ^^^ b.zeroExtend 16)).toNat (BitVec.isLt _)
  rw [BitVec.ofNat_toNat, BitVec.setWidth_eq] at hentry
  calc crcTableStep c b
      = (c ^^^ b.zeroExtend 16) >>> 8 ^^^ crcUpdate 0 (loByte (c ^^^ b.zeroExtend 16)) := by
        rw [crcTableStep, toNat_and_0xFF, List.getD_eq_getElem?_getD, hentry, Option.getD_some, hhigh]
    _ = crcUpdate c b := (crcShifts_eight _).symm

/-- Settles O9: the entries are computed; by linearity the step needs only the entry of the low byte. -/
theorem tableDrivenCrcIsTheBitwiseCrc : Obligations.TableDrivenCrcIsTheBitwiseCrc := by
  unfold Obligations.TableDrivenCrcIsTheBitwiseCrc
  exact ⟨crcTable_getElem?, crcTableStep_eq_crcUpdate⟩

/-! ### The register loses nothing -/

/-- The bit shifted out comes back as the top bit, because the polynomial has it. -/
theorem crcShift_getLsbD_fifteen (c : Word) : (crcShift c).getLsbD 15 = c.getLsbD 0 := by
  unfold crcShift
  split
  next h => simp [h]
  next h => simpa using h

theorem crcShift_injective : Function.Injective crcShift := by
  intro c d h
  have hlow : c.getLsbD 0 = d.getLsbD 0 := by
    rw [← crcShift_getLsbD_fifteen, h, crcShift_getLsbD_fifteen]
  have hrest : c >>> 1 = d >>> 1 := by
    unfold crcShift at h
    rw [hlow] at h
    split at h
    · exact (BitVec.xor_left_inj _).mp h
    · exact h
  apply BitVec.eq_of_getLsbD_eq
  intro i _
  cases i with
  | zero => exact hlow
  | succ i => simpa [Nat.add_comm] using congrArg (BitVec.getLsbD · i) hrest

theorem crcShifts_injective (n : Nat) : Function.Injective (crcShifts n) := by
  induction n with
  | zero => exact Function.injective_id
  | succ n ih => exact ih.comp crcShift_injective

/-- A byte keeps different registers different. -/
theorem crcUpdate_left_inj {c d : Word} {b : Byte} : crcUpdate c b = crcUpdate d b ↔ c = d :=
  (crcShifts_injective 8).eq_iff.trans (BitVec.xor_left_inj _)

/-- Different bytes lead to different registers. -/
theorem crcUpdate_right_inj {c : Word} {a b : Byte} : crcUpdate c a = crcUpdate c b ↔ a = b := by
  refine ⟨fun h => ?_, fun h => by rw [h]⟩
  have hext : a.zeroExtend 16 = b.zeroExtend 16 :=
    (BitVec.xor_right_inj _).mp (crcShifts_injective 8 h)
  simpa using congrArg (BitVec.setWidth 8) hext

theorem foldl_crcUpdate_inj {x : List Byte} {c d : Word} :
    x.foldl crcUpdate c = x.foldl crcUpdate d ↔ c = d := by
  induction x generalizing c d with
  | nil => rfl
  | cons b x ih => exact ih.trans crcUpdate_left_inj

/-! ### The two forms of the frame check (R186) -/

theorem crcUpdate_eq_zero_iff {c : Word} {b : Byte} : crcUpdate c b = 0 ↔ c = b.zeroExtend 16 := by
  rw [← crcUpdate_zeroExtend_self b, crcUpdate_left_inj]

/-- A byte leaves nothing but the high byte exactly where it is the low byte. -/
theorem crcUpdate_eq_zeroExtend_iff {c : Word} {a b : Byte} :
    crcUpdate c a = b.zeroExtend 16 ↔ c = ofBE16 b a := by
  have hpair : crcUpdate (ofBE16 b a) a = b.zeroExtend 16 := by
    simpa using crcUpdate_loByte (ofBE16 b a)
  rw [← hpair, crcUpdate_left_inj]

theorem crc16_append_pair_eq_zero_iff {x : List Byte} {a b : Byte} :
    crc16 (x ++ [a, b]) = 0 ↔ crc16 x = ofBE16 b a := by
  rw [crc16_append, ← crcUpdate_eq_zeroExtend_iff]
  exact crcUpdate_eq_zero_iff

theorem crcMatches_append_pair_iff {x : List Byte} {a b : Byte} :
    crcMatches (x ++ [a, b]) = true ↔ crc16 x = ofBE16 b a := by
  have hpair : crcMatches (x ++ [a, b]) = true ↔ a = loByte (crc16 x) ∧ b = hiByte (crc16 x) := by
    simp [crcMatches]
  rw [hpair]
  constructor
  · rintro ⟨rfl, rfl⟩
    exact (ofBE16_bytes _).symm
  · intro h
    simp [h]

theorem crcMatches_iff_crc16_eq_zero {f : List Byte} (h : 2 ≤ f.length) :
    crcMatches f = true ↔ crc16 f = 0 := by
  obtain ⟨a, b, hlast⟩ := List.length_eq_two.mp
    (show (f.drop (f.length - 2)).length = 2 by simp; omega)
  rw [← List.take_append_drop (f.length - 2) f, hlast, crcMatches_append_pair_iff,
    crc16_append_pair_eq_zero_iff]

/-- Settles O10: both forms say that the CRC of the body is the word its last two bytes spell. -/
theorem frameCheckFormsAgree : Obligations.FrameCheckFormsAgree := by
  unfold Obligations.FrameCheckFormsAgree
  refine ⟨fun f h => ?_, crcMatches_crcAppend⟩
  rw [crcMatches_iff_crc16_eq_zero h, crcPasses, beq_iff_eq]

/-! ### A single flipped bit (R187) -/

theorem foldl_crcUpdate_modify_ne {g : Byte → Byte} (hg : ∀ b, g b ≠ b) {x : List Byte} {i : Nat}
    (hi : i < x.length) (c : Word) :
    (x.modify i g).foldl crcUpdate c ≠ x.foldl crcUpdate c := by
  induction x generalizing i c with
  | nil => cases hi
  | cons b x ih =>
    cases i with
    | zero => exact mt (foldl_crcUpdate_inj.trans crcUpdate_right_inj).mp (hg b)
    | succ i => exact ih (Nat.lt_of_succ_lt_succ hi) (crcUpdate c b)

theorem xor_bit_ne (b : Byte) (k : Nat) : b ^^^ (1#8 <<< (k % 8)) ≠ b := by
  have hbit : ∀ j < 8, 1#8 <<< j ≠ 0#8 := by decide
  intro h
  exact hbit (k % 8) (Nat.mod_lt _ (by decide))
    ((BitVec.xor_right_inj b).mp (h.trans BitVec.xor_zero.symm))

theorem crc16_flipBit_ne {x : List Byte} {k : Nat} (hk : k < 8 * x.length) :
    crc16 (flipBit x k) ≠ crc16 x :=
  foldl_crcUpdate_modify_ne (xor_bit_ne · k) (Nat.div_lt_of_lt_mul hk) crcInit

/-- Settles O11: a flipped bit makes the registers differ at its byte and no later byte makes them
meet; by the second form of the frame check this covers the CRC's own bits. -/
theorem singleBitErrorsAreAlwaysDetected : Obligations.SingleBitErrorsAreAlwaysDetected := by
  unfold Obligations.SingleBitErrorsAreAlwaysDetected
  refine ⟨fun x k => crc16_flipBit_ne, fun f k h4 hf hk => ?_⟩
  have hlen : (flipBit f k).length = f.length := List.length_modify ..
  have hzero : crc16 f = 0 := (crcMatches_iff_crc16_eq_zero (by omega)).mp hf
  rw [Bool.eq_false_iff, ne_eq, crcMatches_iff_crc16_eq_zero (by omega), ← hzero]
  exact crc16_flipBit_ne hk

end Sys2Proof.Machine
end

section
/-! PROOF. One item of an RTU session's stream in a step: a byte, a gap that completes no frame, the end
of the stream (spec/42_rtu_crc.md R189 to R195). -/

namespace Sys2Proof.Machine

variable {E : Engine} {b : Byte}

/-! ### A byte (R189, R190) -/

theorem itemRule_rtuByte_buffered (hm : E.mode = .rtu) (hp : E.phase = .rtuRecv)
    (hlen : E.buf.length < 256) (u : State) :
    itemRule E (.byte b) u =
      .next (u.setEngine { E with buf := E.buf ++ [b], crc := crcUpdate E.crc b }) := by
  rw [itemRule_rtuByte hm hp, Engine.rtuByte,
    if_pos (show E.buf.length < Config.rtuFrameMax from hlen)]

theorem itemRule_rtuByte_oversized (hm : E.mode = .rtu) (hp : E.phase = .rtuRecv)
    (hlen : 256 ≤ E.buf.length) (u : State) :
    itemRule E (.byte b) u =
      .next (u.setEngine { E with buf := [], crc := crcInit, phase := .rtuDiscard }) := by
  have hmax : ¬E.buf.length < Config.rtuFrameMax := Nat.not_lt.mpr hlen
  rw [itemRule_rtuByte hm hp, Engine.rtuByte, if_neg hmax, Engine.clearBuf]

theorem itemRule_discard_byte (hm : E.mode = .rtu) (hp : E.phase = .rtuDiscard) (u : State) :
    itemRule E (.byte b) u = .next (u.setEngine E) := by
  simp only [itemRule, hm, rtuItem, hp]

/-- Settles O45: in RTU_RECV the byte is buffered or is the one too many; in RTU_DISCARD it is
ignored. -/
theorem rtuByteIsBufferedUpToTheFrameLimit : Obligations.RtuByteIsBufferedUpToTheFrameLimit := by
  unfold Obligations.RtuByteIsBufferedUpToTheFrameLimit
  intro s k E b more rest hs hr hm
  refine ⟨fun hp hlen => ?_, fun hp hlen => ?_, fun hp => ?_⟩
  · exact step_of_itemRule hs hr
      (itemRule_rtuByte_buffered (E := { E with input := more }) hm hp hlen)
  · exact step_of_itemRule hs hr
      (itemRule_rtuByte_oversized (E := { E with input := more }) hm hp hlen)
  · exact step_of_itemRule hs hr (itemRule_discard_byte (E := { E with input := more }) hm hp)

/-! ### A gap that completes no frame (R191 to R194) -/

/-- A dropped RTU frame leaves its outcome in the status and RTU_RECV empty. -/
theorem drop_rtu (hm : E.mode = .rtu) (kind : Kind) :
    E.drop kind =
      { E with buf := [], crc := crcInit, phase := .rtuRecv, status := plainStatus kind } := by
  simp only [Engine.drop, Engine.nextFrame, Engine.clearBuf, hm, startPhase]

theorem drop_rtuRecv (hm : E.mode = .rtu) (hp : E.phase = .rtuRecv) (kind : Kind) :
    E.drop kind = { E with buf := [], crc := crcInit, status := plainStatus kind } := by
  rw [drop_rtu hm, ← hp]

theorem itemRule_gap_empty (hm : E.mode = .rtu) (hp : E.phase = .rtuRecv) (hb : E.buf = [])
    (u : State) : itemRule E .gap u = .next (u.setEngine E) := by
  rw [itemRule_gap hm hp, rtuGap, if_pos (by rw [hb, List.length_nil])]

theorem itemRule_gap_short (hm : E.mode = .rtu) (hp : E.phase = .rtuRecv) (hb : E.buf ≠ [])
    (h4 : E.buf.length < 4) (u : State) :
    itemRule E .gap u = .next (u.setEngine
      { E with buf := [], crc := crcInit, status := plainStatus .dropFrame }) := by
  rw [itemRule_gap hm hp, rtuGap, if_neg (mt List.length_eq_zero_iff.mp hb),
    if_pos (show E.buf.length < Config.rtuFrameMin from h4), drop_rtuRecv hm hp]

theorem itemRule_gap_badCrc (hm : E.mode = .rtu) (hp : E.phase = .rtuRecv)
    (h4 : 4 ≤ E.buf.length) (hcrc : crc16 E.buf ≠ 0) (u : State) :
    itemRule E .gap u = .next (u.setEngine
      { E with buf := [], crc := crcInit, status := plainStatus .dropCrc }) := by
  have hmin : ¬E.buf.length < Config.rtuFrameMin := Nat.not_lt.mpr h4
  rw [itemRule_gap hm hp, rtuGap, if_neg (by omega), if_neg hmin,
    if_neg (by simpa [crcPasses] using hcrc), drop_rtuRecv hm hp]

theorem itemRule_discard_gap (hm : E.mode = .rtu) (hp : E.phase = .rtuDiscard) (u : State) :
    itemRule E .gap u = .next (u.setEngine
      { E with buf := [], crc := crcInit, phase := .rtuRecv, status := plainStatus .dropFrame }) := by
  rw [← drop_rtu hm]
  simp only [itemRule, hm, rtuItem, hp]

/-- Settles O46: nothing buffered, a frame too short, an oversized frame and a CRC mismatch. -/
theorem rtuGapDropsBadFramesSilently : Obligations.RtuGapDropsBadFramesSilently := by
  unfold Obligations.RtuGapDropsBadFramesSilently
  intro s k E more rest hs hr hm
  refine ⟨fun hp hb => ?_, fun hp hb h4 => ?_, fun hp => ?_, fun hp h4 hcrc => ?_⟩
  · exact step_of_itemRule hs hr (itemRule_gap_empty (E := { E with input := more }) hm hp hb)
  · exact step_of_itemRule hs hr (itemRule_gap_short (E := { E with input := more }) hm hp hb h4)
  · exact step_of_itemRule hs hr (itemRule_discard_gap (E := { E with input := more }) hm hp)
  · exact step_of_itemRule hs hr (itemRule_gap_badCrc (E := { E with input := more }) hm hp h4 hcrc)

/-! ### The end of an RTU stream (R195) -/

theorem itemRule_rtuEos (hm : E.mode = .rtu) (hp : E.phase = .rtuRecv ∨ E.phase = .rtuDiscard)
    (u : State) : itemRule E .eos u = .next (u.setEngine E.rtuEos) := by
  obtain hp | hp := hp
  · simp only [itemRule, hm, rtuItem, hp]
  · simp only [itemRule, hm, rtuItem, hp]

/-- Settles O47: both phases answer the end of the stream alike. -/
theorem rtuEndOfStreamDiscardsAndCloses : Obligations.RtuEndOfStreamDiscardsAndCloses := by
  unfold Obligations.RtuEndOfStreamDiscardsAndCloses
  intro s k E more rest hs hr hm hp
  exact step_of_itemRule hs hr (itemRule_rtuEos (E := { E with input := more }) hm hp)

end Sys2Proof.Machine
end

section
/-! PROOF. The dispatcher (spec/43_dispatcher.md): the unit filter (R211), the codec's exceptions (R212),
the response of a request (R218), EMIT (R216), and when no item is consumed (R217). -/

namespace Sys2Proof.Machine

variable {i : Instr} {s t : State} {E : Engine} {env : Envelope} {fc : Byte} {k : Nat}

/-! ### The codec's exceptions (R212) -/

/-- The codec raises IllegalFunction on an unsupported code and IllegalDataValue on a failed check. -/
theorem decodeRequest_error {p : List Byte} {e : WireExc} (h : decodeRequest p = .error e) :
    (e = .illegalFunction ∧ ∃ i, decode p = .ok i ∧ supportedFcs.contains i.fc = false) ∨
    (e = .illegalDataValue ∧ ∃ d, decode p = .error d) := by
  unfold decodeRequest at h
  split at h
  · rename_i d hd
    obtain rfl := Except.error.inj h
    exact .inr ⟨decodeExc_eq_illegalDataValue d, d, hd⟩
  · rename_i i hi
    split at h
    · cases h
    · rename_i hfc
      exact .inl ⟨(Except.error.inj h).symm, i, hi, Bool.eq_false_iff.mpr hfc⟩

/-- Past the unit filter, a request with an unsupported code is nothing but its exception. -/
theorem performOf_unsupported (h : supportedFcs.contains i.fc = false) :
    performOf i = performRaise .illegalFunction := by
  cases i
  case unsupportedBit7 | unsupportedDefault => rfl
  all_goals cases h

theorem execPdu_of_decodeRequest_error {p : List Byte} {e : WireExc}
    (h : decodeRequest p = .error e) (s : State) :
    execPdu p s = request (p.getD 0 0) (performRaise e) s := by
  obtain ⟨rfl, i, hi, hfc⟩ | ⟨rfl, d, hd⟩ := decodeRequest_error h
  · rw [execPdu_of_decode hi, exec_eq_request, performOf_unsupported hfc, decode_fc hi]
  · simp only [execPdu, hd, decodeExc_eq_illegalDataValue]

/-- Settles O30: such a PDU raises its exception past the unit filter, whatever the state. -/
theorem codecFailureIsAnsweredWithItsException :
    Obligations.CodecFailureIsAnsweredWithItsException := by
  unfold Obligations.CodecFailureIsAnsweredWithItsException
  intro p s E env e _ h hs
  constructor
  · obtain ⟨he, -⟩ | ⟨he, -⟩ := decodeRequest_error h
    · exact .inl he
    · exact .inr he
  · rw [execPdu_of_decodeRequest_error h]
    exact request_raises hs rfl

/-! ### The unit filter (R211) -/

theorem unitAccepted_iff {cfg : Cfg} {uid : Byte} :
    unitAccepted cfg uid = true ↔ cfg.unitFilterEn = false ∨ uid = cfg.unitId := by
  simp [unitAccepted]

/-- A frame for another unit on TCP: IllegalFunction, whatever the request. -/
theorem request_otherUnit_tcp {perform : State → Except WireExc (State × List Byte)}
    (hE : s.engine? = some E) (henv : E.envelope = some env)
    (hu : unitAccepted s.cfg env.uid = false) (hm : E.mode = .tcp) :
    request fc perform s = .next (afterExec s E env [fc ||| 0x80, 0x01] 0x0102 s.store) := by
  rw [request_filtered_tcp hE henv hu hm]
  rfl

/-- A frame for another unit on RTU: DROP_UNIT, whatever the request. -/
theorem request_otherUnit_rtu {perform : State → Except WireExc (State × List Byte)}
    (hE : s.engine? = some E) (henv : E.envelope = some env)
    (hu : unitAccepted s.cfg env.uid = false) (hm : E.mode = .rtu) :
    request fc perform s = .next { s with
      engines := s.engines.set s.cur
        { E with buf := [], crc := 0xFFFF, phase := .rtuRecv, status := 0x0004 } } := by
  rw [request_filtered_rtu hE henv hu hm, drop_rtu hm]
  rfl

/-- Settles O31: an instruction and a PDU are both request steps, whose filter comes first. -/
theorem unitFilterDecidesBeforeTheRequest : Obligations.UnitFilterDecidesBeforeTheRequest := by
  unfold Obligations.UnitFilterDecidesBeforeTheRequest
  refine ⟨fun s E env hE henv hfilter huid => ?_, fun cfg uid => unitAccepted_iff.mpr⟩
  have hu : unitAccepted s.cfg env.uid = false := by
    rw [← Bool.not_eq_true, unitAccepted_iff]
    simp [hfilter, huid]
  refine ⟨fun hm => ⟨fun i => ?_, fun p _ => ?_⟩, fun hm => ⟨fun i => ?_, fun p _ => ?_⟩⟩
  · rw [exec_eq_request]
    exact request_otherUnit_tcp hE henv hu hm
  · obtain ⟨perform, hp, -⟩ := execPdu_eq_request p s
    rw [hp]
    exact request_otherUnit_tcp hE henv hu hm
  · rw [exec_eq_request]
    exact request_otherUnit_rtu hE henv hu hm
  · obtain ⟨perform, hp, -⟩ := execPdu_eq_request p s
    rw [hp]
    exact request_otherUnit_rtu hE henv hu hm

/-! ### What EXEC of an instruction leaves (R210, R218) -/

/-- `r` with status `st` answers a request whose function code is `fc`: a normal response begins with it,
an exception response is that code OR 0x80 and one of the codes of spec/60_exceptions.md R302. -/
def Answers (fc : Byte) (r : List Byte) (st : Word) : Prop :=
  (r.head? = some fc ∧ st = 0x0001) ∨
  ∃ code ∈ [0x01#8, 0x02#8, 0x03#8], r = [fc ||| 0x80, code] ∧ st = code ++ 0x02#8

theorem answers_encodeExc (fc : Byte) (e : WireExc) :
    Answers fc (encodeExc fc (excCode e)) (excStatus (excCode e)) := by
  refine .inr ⟨excCode e, ?_, rfl, rfl⟩
  cases e <;> decide

theorem performOf_head? {s' : State} {r : List Byte} (h : performOf i s = .ok (s', r)) :
    r.head? = some i.fc := by
  cases i <;>
    simp only [performOf, performReadBits, performReadWords, performWriteBits, performWriteWords,
      performRaise, checked_ok, Prod.mk.injEq, reduceCtorEq] at h
  all_goals
    obtain ⟨-, -, rfl⟩ := h
    rfl

theorem performOf_movesTo {s' : State} {r : List Byte} (h : performOf i s = .ok (s', r))
    (F : Engine) : s.MovesTo F (s'.setEngine F) := by
  obtain rfl | ⟨a, vs, ha, rfl⟩ | ⟨a, vs, ha, rfl⟩ := performOf_ok h
  · exact movesTo_setEngine _ _
  · exact ⟨_, rfl, fun hw => memWriteBits_wf .coils a vs hw ha⟩
  · exact ⟨_, rfl, fun hw => memWriteWords_wf .hr a vs hw ha⟩

/-- EXEC moves the current session and the store only: an answer to the request waits in the request's
own envelope, or the frame is dropped. -/
theorem exec_next (h : exec i s = .next t) (hE : s.engine? = some E)
    (henv : E.envelope = some env) :
    ∃ F, s.MovesTo F t ∧
      ((∃ r st, Answers i.fc r st ∧ F = E.nextFrame.respond env r st) ∨ F = E.drop .dropUnit) := by
  rw [exec_eq_request] at h
  obtain ⟨E', env', hE', henv', hcases⟩ := request_next h
  obtain rfl := Option.some.inj (hE.symm.trans hE')
  obtain rfl := Option.some.inj (henv.symm.trans henv')
  obtain ⟨-, s', r, hok, rfl⟩ | ⟨-, e, -, rfl⟩ | ⟨-, -, rfl⟩ | ⟨-, -, rfl⟩ := hcases
  · exact ⟨_, performOf_movesTo hok _, .inl ⟨r, _, .inl ⟨performOf_head? hok, rfl⟩, rfl⟩⟩
  · exact ⟨_, movesTo_setEngine _ _, .inl ⟨_, _, answers_encodeExc i.fc e, rfl⟩⟩
  · exact ⟨_, movesTo_setEngine _ _, .inl ⟨_, _, answers_encodeExc i.fc .illegalFunction, rfl⟩⟩
  · exact ⟨_, movesTo_setEngine _ _, .inr rfl⟩

/-- Settles O33: EXEC goes on, and moves the current session and the store only. -/
theorem everyInstructionCompletesOnACompleteFrame :
    Obligations.EveryInstructionCompletesOnACompleteFrame := by
  unfold Obligations.EveryInstructionCompletesOnACompleteFrame
  intro i s E env hE henv
  obtain ⟨t, ht⟩ : ∃ t, exec i s = .next t := by
    rw [exec_eq_request]
    exact request_goesOn hE henv
  obtain ⟨F, ⟨m, rfl, -⟩, -⟩ := exec_next ht hE henv
  exact ⟨_, ht, rfl, rfl, rfl, rfl, rfl, List.length_set, rfl, rfl⟩

/-- The session a move leaves is the one it names. -/
theorem State.MovesTo.engine? {F : Engine} (h : s.MovesTo F t) (hE : s.engine? = some E) :
    t.engine? = some F := by
  obtain ⟨m, rfl, -⟩ := h
  exact setEngine_engine? F s (engine?_some_lt _ hE)

/-- Settles O34: what waits is the answer EXEC left, as a dropped frame leaves nothing. -/
theorem responsesEchoTheirRequest : Obligations.ResponsesEchoTheirRequest := by
  unfold Obligations.ResponsesEchoTheirRequest
  intro i s t E F env p h hE henv hidle hF hp
  obtain ⟨F', hmoves, hcases⟩ := exec_next h hE henv
  obtain rfl := Option.some.inj (hF.symm.trans (hmoves.engine? hE))
  obtain ⟨r, st, hr, rfl⟩ | rfl := hcases
  · obtain rfl : _ = p := Option.some.inj hp
    exact ⟨r, rfl, hr⟩
  · rw [drop_txPending, hidle] at hp
    cases hp

/-! ### EMIT (R216) -/

theorem step_emit {p : TxPending} {accepted : Bool} {rest : List Event}
    (hs : s.schedule = .emit k accepted :: rest) (hE : s.engines[k]? = some E)
    (ho : E.sess = .opened) (hp : E.txPending = some p) :
    step s = .next (withEngine { s with schedule := rest } k
      (if accepted then E.emitAccepted p else E.emitFailed)) := by
  rw [step_event hs]
  simp only [stepEvent, emit, hE, ho, hp]
  rfl

/-- Settles O38: the event is enabled, and the host's answer chooses the outcome. -/
theorem emitSendsTheFrameOrClosesTheSession :
    Obligations.EmitSendsTheFrameOrClosesTheSession := by
  unfold Obligations.EmitSendsTheFrameOrClosesTheSession
  intro s k E p rest hE ho hp
  exact ⟨fun hs => step_emit hs hE ho hp, fun hs => step_emit hs hE ho hp⟩

/-! ### No item consumed (R217) -/

/-- Settles O39: the event is not enabled. -/
theorem noItemIsConsumedWhileAResponseIsPending :
    Obligations.NoItemIsConsumedWhileAResponseIsPending := by
  unfold Obligations.NoItemIsConsumedWhileAResponseIsPending
  intro s k E rest hs hE h
  rw [step_event hs]
  exact consume_idle hE (or_left_comm.mp h)

end Sys2Proof.Machine
end

section
/-! PROOF. The read function codes FC1 to FC4 (spec/44_read_fc01_04.md): a read within its table answers
the cells and leaves the store. -/

namespace Sys2Proof.Machine

variable {s : State} {E : Engine} {env : Envelope} {fc : Byte} {start qty : Word}

/-! ### Bits (R230, R231) -/

theorem performReadBits_within {t : BitTable} (h₁ : 1 ≤ qty.toNat)
    (hq : qty.toNat ≤ Config.qmaxReadBits) (hb : start.toNat + qty.toNat ≤ s.bitCapacity t) :
    performReadBits fc t start qty s =
      .ok (s, respBits fc qty (s.memReadBits t start.toNat qty.toNat)) :=
  checked_ok.mpr ⟨⟨h₁, hq, hb⟩, rfl⟩

/-- EXEC of a read of bits within its table. -/
theorem request_readBits (h : Serving s E env) {t : BitTable} (h₁ : 1 ≤ qty.toNat)
    (hq : qty.toNat ≤ Config.qmaxReadBits) (hb : start.toNat + qty.toNat ≤ s.bitCapacity t) :
    request fc (performReadBits fc t start qty) s =
      .next (afterExec s E env (respBits fc qty (s.memReadBits t start.toNat qty.toNat)) 0x0001
        s.store) :=
  request_responds h (performReadBits_within h₁ hq hb)

/-- Settles O20: FC1 and FC2 are that read, of COILS and of DI. -/
theorem readBitsAnswerThePackedCells : Obligations.ReadBitsAnswerThePackedCells := by
  unfold Obligations.ReadBitsAnswerThePackedCells
  constructor
  · intro s E env start qty h h₁ hq hb
    exact request_readBits (t := .coils) h h₁ hq hb
  · intro s E env start qty h h₁ hq hb
    exact request_readBits (t := .di) h h₁ hq hb

/-! ### Words (R232, R233) -/

/-- The cells read, each high byte first (spec/30_encoding.md R97). -/
theorem wordBytes_memReadWords (s : State) (t : WordTable) (a n : Nat) :
    wordBytes (s.memReadWords t a n) =
      (List.range n).flatMap fun i => BE16 ((s.word? t (a + i)).getD 0) :=
  List.flatMap_map _ _ _

/-- EXEC of a read of words within its table. -/
theorem request_readWords (h : Serving s E env) {t : WordTable} (h₁ : 1 ≤ qty.toNat)
    (hq : qty.toNat ≤ Config.qmaxReadWords) (hb : start.toNat + qty.toNat ≤ s.wordCapacity t) :
    request fc (performReadWords fc t start qty) s =
      .next (afterExec s E env
        (fc :: BitVec.ofNat 8 (2 * qty.toNat) ::
          (List.range qty.toNat).flatMap fun i => BE16 ((s.word? t (start.toNat + i)).getD 0))
        0x0001 s.store) := by
  rw [← wordBytes_memReadWords]
  exact request_responds h (performReadWords_within h₁ hq hb)

/-- Settles O21: FC3 and FC4 are that read, of HR and of IR. -/
theorem readWordsAnswerTheCellsHighByteFirst :
    Obligations.ReadWordsAnswerTheCellsHighByteFirst := by
  unfold Obligations.ReadWordsAnswerTheCellsHighByteFirst
  constructor
  · intro s E env start qty h h₁ hq hb
    exact request_readWords (t := .hr) h h₁ hq hb
  · intro s E env start qty h h₁ hq hb
    exact request_readWords (t := .ir) h h₁ hq hb

end Sys2Proof.Machine
end

section
/-! PROOF. The single writes FC5 and FC6 (spec/45_write_single_fc05_06.md): `MemWrite` of one value sets
one cell, and the response echoes the request. -/

namespace Sys2Proof.Machine

variable {s : State} {E : Engine} {env : Envelope} {fc : Byte} {qmax : Nat} {start second : Word}

/-! ### `MemWrite` of one value (spec/20_memory.md R63, R71) -/

/-- A range of one cell is that cell. -/
theorem ite_mem_range_singleton {α : Type} {p : Prop} [Decidable p] {a b : Nat} {v : α}
    {o : Option α} :
    (if p ∧ a ≤ b ∧ b < a + [v].length then [v][b - a]? else o) =
      if p ∧ b = a then some v else o := by
  refine if_ctx_congr (and_congr_right' ?_) (fun h => ?_) fun _ => rfl
  · rw [List.length_singleton]
    omega
  · rw [h.2, Nat.sub_self, List.getElem?_cons_zero]

theorem bit?_memWriteBits_singleton {t : BitTable} {a : Nat} (ha : a < s.bitCapacity t)
    (v : Bool) (t' : BitTable) (b : Nat) :
    (s.memWriteBits t a [v]).bit? t' b = if t' = t ∧ b = a then some v else s.bit? t' b :=
  (bit?_memWriteBits ha t' b).trans ite_mem_range_singleton

theorem word?_memWriteWords_singleton {t : WordTable} {a : Nat} (ha : a < s.wordCapacity t)
    (v : Word) (t' : WordTable) (b : Nat) :
    (s.memWriteWords t a [v]).word? t' b = if t' = t ∧ b = a then some v else s.word? t' b :=
  (word?_memWriteWords ha t' b).trans ite_mem_range_singleton

/-! ### EXEC of a write within its table (R250, R251, spec/43_dispatcher.md R213) -/

theorem performWriteBits_within {vs : List Bool} (h₁ : 1 ≤ vs.length) (hq : vs.length ≤ qmax)
    (hb : start.toNat + vs.length ≤ s.bitCapacity .coils) :
    performWriteBits fc qmax start second vs s =
      .ok (s.memWriteBits .coils start.toNat vs, respEcho fc start second) :=
  checked_ok.mpr ⟨⟨h₁, hq, hb⟩, rfl⟩

/-- EXEC of a write of coils within the table. -/
theorem request_writeBits (h : Serving s E env) {vs : List Bool} (h₁ : 1 ≤ vs.length)
    (hq : vs.length ≤ qmax) (hb : start.toNat + vs.length ≤ s.bitCapacity .coils) :
    request fc (performWriteBits fc qmax start second vs) s =
      .next (afterExec s E env (respEcho fc start second) 0x0001
        (s.memWriteBits .coils start.toNat vs).store) :=
  request_responds h (performWriteBits_within h₁ hq hb)

/-- EXEC of a write of holding registers within the table. -/
theorem request_writeWords (h : Serving s E env) {vs : List Word} (h₁ : 1 ≤ vs.length)
    (hq : vs.length ≤ qmax) (hb : start.toNat + vs.length ≤ s.wordCapacity .hr) :
    request fc (performWriteWords fc qmax start second vs) s =
      .next (afterExec s E env (respEcho fc start second) 0x0001
        (s.memWriteWords .hr start.toNat vs).store) :=
  request_responds h (performWriteWords_within h₁ hq hb)

/-- Settles O22: FC5 writes the one bit that says whether the value is 0xFF00; that the value is one of
the two codes is the codec's check (R130) and not needed here. -/
theorem writeSingleCoilSetsOneCoilAndEchoes :
    Obligations.WriteSingleCoilSetsOneCoilAndEchoes := by
  unfold Obligations.WriteSingleCoilSetsOneCoilAndEchoes
  intro s E env start value h ha _
  refine ⟨(s.memWriteBits .coils start.toNat [value == 0xFF00]).store, ?_, ?_, ?_⟩
  · exact request_writeBits h (Nat.le_refl 1) (Nat.le_refl 1) ha
  · exact bit?_memWriteBits_singleton ha _
  · exact memWriteBits_word? s .coils _ _

/-- Settles O23: FC6 writes the one word `value`. -/
theorem writeSingleRegisterSetsOneRegisterAndEchoes :
    Obligations.WriteSingleRegisterSetsOneRegisterAndEchoes := by
  unfold Obligations.WriteSingleRegisterSetsOneRegisterAndEchoes
  intro s E env start value h ha
  refine ⟨(s.memWriteWords .hr start.toNat [value]).store, ?_, ?_, ?_⟩
  · exact request_writeWords h (Nat.le_refl 1) (Nat.le_refl 1) ha
  · exact word?_memWriteWords_singleton ha _
  · exact memWriteWords_bit? s .hr _ _

end Sys2Proof.Machine
end

section
/-! PROOF. The multiple writes FC15 and FC16 (spec/46_write_multiple_fc15_16.md): `MemWrite` of the
unpacked data sets the range, and the response echoes `start` and `qty`. -/

namespace Sys2Proof.Machine

variable {s : State}

/-! ### The values unpacked from the data (R260, R261, R263) -/

theorem getElem?_unpackBits (data : List Byte) {i n : Nat} (hi : i < n) :
    (unpackBits data n)[i]? = some ((data.getD (i / 8) 0).getLsbD (i % 8)) := by
  rw [unpackBits, List.getElem?_map, List.getElem?_range hi, Option.map_some]

theorem getElem?_unpackWords (data : List Byte) {i n : Nat} (hi : i < n) :
    (unpackWords data n)[i]? = some (be16 data (2 * i)) := by
  rw [unpackWords, List.getElem?_map, List.getElem?_range hi, Option.map_some]

/-! ### `MemWrite` of the unpacked data (spec/20_memory.md R63, R71) -/

/-- Bit `i` of the data goes to cell `a + i`; the padding, bits `n` and on, goes nowhere (R263). -/
theorem bit?_memWriteBits_unpackBits {t : BitTable} {a n : Nat} (ha : a + n ≤ s.bitCapacity t)
    (data : List Byte) (t' : BitTable) (b : Nat) :
    (s.memWriteBits t a (unpackBits data n)).bit? t' b =
      if t' = t ∧ a ≤ b ∧ b < a + n then
        some ((data.getD ((b - a) / 8) 0).getLsbD ((b - a) % 8))
      else s.bit? t' b := by
  rw [bit?_memWriteBits (by rwa [unpackBits_length]), unpackBits_length]
  exact if_ctx_congr Iff.rfl (fun ⟨_, _, _⟩ => getElem?_unpackBits data (by omega)) fun _ => rfl

/-- Word `i` of the data goes to cell `a + i`, its high byte first (R261). -/
theorem word?_memWriteWords_unpackWords {t : WordTable} {a n : Nat}
    (ha : a + n ≤ s.wordCapacity t) (data : List Byte) (t' : WordTable) (b : Nat) :
    (s.memWriteWords t a (unpackWords data n)).word? t' b =
      if t' = t ∧ a ≤ b ∧ b < a + n then some (be16 data (2 * (b - a))) else s.word? t' b := by
  rw [word?_memWriteWords (by rwa [unpackWords_length]), unpackWords_length]
  exact if_ctx_congr Iff.rfl (fun ⟨_, _, _⟩ => getElem?_unpackWords data (by omega)) fun _ => rfl

/-- Settles O24: FC15 writes the first `qty` bits of the data; that `bc` fits them is the codec's check
(R262) and not needed here. -/
theorem writeMultipleCoilsSetsTheRange : Obligations.WriteMultipleCoilsSetsTheRange := by
  unfold Obligations.WriteMultipleCoilsSetsTheRange
  intro s E env start qty bc data h _ h₁ hq hb
  have hlen := unpackBits_length data qty.toNat
  refine ⟨(s.memWriteBits .coils start.toNat (unpackBits data qty.toNat)).store, ?_, ?_, ?_⟩
  · exact request_writeBits h (by rwa [hlen]) (by rwa [hlen]) (by rwa [hlen])
  · exact bit?_memWriteBits_unpackBits hb data
  · exact memWriteBits_word? s .coils _ _

/-- Settles O25: FC16 writes the first `qty` big-endian words of the data; again the codec's check of
`bc` (R262) is not needed. -/
theorem writeMultipleRegistersSetsTheRange : Obligations.WriteMultipleRegistersSetsTheRange := by
  unfold Obligations.WriteMultipleRegistersSetsTheRange
  intro s E env start qty bc data h _ h₁ hq hb
  have hlen := unpackWords_length data qty.toNat
  refine ⟨(s.memWriteWords .hr start.toNat (unpackWords data qty.toNat)).store, ?_, ?_, ?_⟩
  · exact request_writeWords h (by rwa [hlen]) (by rwa [hlen]) (by rwa [hlen])
  · exact word?_memWriteWords_unpackWords hb data
  · exact memWriteWords_bit? s .hr _ _

end Sys2Proof.Machine
end

section
/-! PROOF. Unsupported function codes (spec/47_unsupported_fc.md): the request is nothing but its
exception, whatever follows the function code. -/

namespace Sys2Proof.Machine

variable {s : State} {E : Engine} {env : Envelope} {fc : Byte}

/-- EXEC of a request that only raises IllegalFunction (R280). -/
theorem request_performRaise_illegalFunction (h : Serving s E env) :
    request fc (performRaise .illegalFunction) s =
      .next (afterExec s E env [fc ||| 0x80, 0x01] 0x0102 s.store) :=
  request_raises (perform := performRaise .illegalFunction) h rfl

/-- Settles O27: codes with bit 7 set (R281) and the other unsupported codes (R280) are both that
request, and neither reads the rest of the PDU. -/
theorem unsupportedCodesAreAnsweredIllegalFunction :
    Obligations.UnsupportedCodesAreAnsweredIllegalFunction := by
  unfold Obligations.UnsupportedCodesAreAnsweredIllegalFunction
  constructor
  · intro s E env fc rest h
    exact (exec_eq_request (.unsupportedBit7 fc rest) s).trans
      (request_performRaise_illegalFunction h)
  · intro s E env fc rest h
    exact (exec_eq_request (.unsupportedDefault fc rest) s).trans
      (request_performRaise_illegalFunction h)

end Sys2Proof.Machine
end

section
/-! PROOF. An error ends where it arises (spec/60_exceptions.md R305, R313, R314): a session's item leaves
the other sessions alone, and the store too unless a normal response waits; Abort keeps the store. -/

namespace Sys2Proof.Machine

variable {s t : State}

/-- `t` has the store of `s`, or the current session of `s` is left with a normal response waiting. -/
def State.WritesOnlyAnswered (s t : State) : Prop :=
  t.store = s.store ∨
    ∃ F p, t.engines[s.cur]? = some F ∧ F.txPending = some p ∧ p.status = plainStatus .respOk

theorem writesOnlyAnswered_setEngine (s : State) (F : Engine) :
    s.WritesOnlyAnswered (s.setEngine F) := .inl rfl

/-- What EXEC writes comes with a normal response; an exception or a dropped frame writes nothing. -/
theorem execPdu_writesOnlyAnswered {p : List Byte} (h : execPdu p s = .next t) :
    s.WritesOnlyAnswered t := by
  obtain ⟨perform, hp, hok⟩ := execPdu_eq_request p s
  rw [hp] at h
  obtain ⟨E, env, hE, -, hcases⟩ := request_next h
  obtain ⟨-, s', r, hperf, rfl⟩ | ⟨-, e, -, rfl⟩ | ⟨-, -, rfl⟩ | ⟨-, -, rfl⟩ := hcases
  · obtain ⟨hcur, hengines⟩ : s'.cur = s.cur ∧ s'.engines = s.engines := by
      obtain rfl | ⟨a, vs, -, rfl⟩ | ⟨a, vs, -, rfl⟩ := hok s' r hperf <;> exact ⟨rfl, rfl⟩
    refine .inr ⟨E.nextFrame.respond env r (plainStatus .respOk), _, ?_, rfl, rfl⟩
    rw [setEngine_engines, hcur, hengines, List.getElem?_set_self (engine?_some_lt s hE)]
  · exact writesOnlyAnswered_setEngine _ _
  · exact writesOnlyAnswered_setEngine _ _
  · exact writesOnlyAnswered_setEngine _ _

theorem tcpItem_writesOnlyAnswered {E : Engine} {item : Item} (h : tcpItem E item s = .next t) :
    s.WritesOnlyAnswered t := by
  obtain ⟨b, -, -, rfl⟩ | ⟨b, hd, -, -, -, hbody⟩ | ⟨-, -, rfl⟩ | ⟨-, -, rfl⟩ := tcpItem_next h
  · exact writesOnlyAnswered_setEngine _ _
  · obtain ⟨-, hexec⟩ | ⟨-, rfl⟩ := hbody
    · exact execPdu_writesOnlyAnswered (s := s.setEngine _) hexec
    · exact writesOnlyAnswered_setEngine _ _
  · exact writesOnlyAnswered_setEngine _ _
  · exact writesOnlyAnswered_setEngine _ _

theorem rtuItem_writesOnlyAnswered {E : Engine} {item : Item} (h : rtuItem E item s = .next t) :
    s.WritesOnlyAnswered t := by
  obtain ⟨b, -, -, rfl⟩ | ⟨-, -, -, rfl⟩ | ⟨-, -, -, -, rfl⟩ | ⟨-, -, -, -, hexec⟩ |
    ⟨-, -, -, -, rfl⟩ | ⟨b, -, -, rfl⟩ | ⟨-, -, rfl⟩ | ⟨-, rfl⟩ := rtuItem_next h
  case inr.inr.inr.inl => exact execPdu_writesOnlyAnswered (s := s.setEngine _) hexec
  all_goals exact writesOnlyAnswered_setEngine _ _

theorem consume_writesOnlyAnswered {k : Nat} (h : consume k s = .next t) :
    State.WritesOnlyAnswered { s with cur := k } t := by
  obtain hc | hc | ⟨E, item, more, -, hc⟩ := consume_cases k s <;> rw [hc] at h
  · cases h
  · obtain rfl := Host.Outcome.next.inj h
    exact .inl rfl
  · unfold itemRule at h
    split at h
    · exact tcpItem_writesOnlyAnswered h
    · exact rtuItem_writesOnlyAnswered h

/-- Settles O32: a session's step is its own, and what it writes comes with a normal response. -/
theorem errorsTouchNeitherOtherSessionsNorTheStore :
    Obligations.ErrorsTouchNeitherOtherSessionsNorTheStore := by
  unfold Obligations.ErrorsTouchNeitherOtherSessionsNorTheStore
  intro s t k h
  refine ⟨fun j hj => (consume_sessionStep h).other_getElem? hj, fun F hF hstatus => ?_⟩
  obtain hstore | ⟨F', p, hF', hp, hok⟩ := consume_writesOnlyAnswered h
  · exact hstore
  · obtain rfl := Option.some.inj (hF.symm.trans hF')
    exact absurd hok (hstatus p hp)

/-- Settles O40: Abort maps `Engine.aborted` over the instances. -/
theorem abortClosesEverySessionAndKeepsTheStore :
    Obligations.AbortClosesEverySessionAndKeepsTheStore := by
  unfold Obligations.AbortClosesEverySessionAndKeepsTheStore
  intro s rest hs
  refine ⟨s.engines.map Engine.aborted, step_event hs, List.length_map _, fun k E hE => ?_⟩
  rw [List.getElem?_map, hE, Option.map_some]
  refine ⟨fun ho => ?_, fun hc => ?_⟩
  · rw [aborted_opened E ho]
    rfl
  · rw [aborted_closed E hc]

end Sys2Proof.Machine
end

section
/-! PROOF. Reset, connections and the fixed configuration (spec/70_reset_and_hazards.md R340 to R344,
spec/10_state.md R31, spec/60_exceptions.md R321, R322). -/

namespace Sys2Proof.Machine

variable {s t : State}

/-- Settles O12: a cell of the reset store reads its preset. -/
theorem resetStoreHoldsThePreset : Obligations.ResetStoreHoldsThePreset := by
  unfold Obligations.ResetStoreHoldsThePreset
  exact fun p => ⟨boot_bit? p .coils, boot_bit? p .di, boot_word? p .hr, boot_word? p .ir⟩

/-- Settles O54: `State.reset` is the boot of the default parameters, whose tables have 100 cells. -/
theorem resetSatisfiesTheInvariant : Obligations.ResetSatisfiesTheInvariant := by
  unfold Obligations.ResetSatisfiesTheInvariant
  exact ⟨State.Inv.boot (p := Params.default) (by decide), fun _ => State.Inv.boot⟩

/-! ### Connections (R321, R322) -/

theorem roomForSession_iff :
    s.roomForSession = true ↔ ∀ n, s.maxSessions = some n → s.openCount < n := by
  refine ⟨roomForSession_lt, fun h => ?_⟩
  cases hn : s.maxSessions with
  | none => simp [State.roomForSession, hn]
  | some n => simp [State.roomForSession, hn, h n hn]

theorem connect_tcp_room (he : s.epoch = .running) (hm : s.cfg.mode = .tcp)
    (hroom : s.roomForSession = true) :
    connect s = .next { s with engines := s.engines ++ [Engine.create .tcp] } := by
  simp only [connect, he, hm, if_pos hroom]

theorem connect_tcp_full (he : s.epoch = .running) (hm : s.cfg.mode = .tcp)
    (hroom : ¬s.roomForSession = true) : connect s = .refused .sessionLimit := by
  simp only [connect, he, hm, if_neg hroom]

theorem connect_rtu_first (he : s.epoch = .running) (hm : s.cfg.mode = .rtu)
    (hnone : s.engines = []) : connect s = .next { s with engines := [Engine.create .rtu] } := by
  simp only [connect, he, hm, hnone, List.length_nil, if_true, List.nil_append]

theorem connect_rtu_second (he : s.epoch = .running) (hm : s.cfg.mode = .rtu)
    (hsome : s.engines ≠ []) : connect s = .refused .rtuSingleSession := by
  simp only [connect, he, hm, if_neg (mt List.length_eq_zero_iff.mp hsome)]

/-- Settles O15: the instance appended is `Engine.create` of the epoch's transport. -/
theorem newInstanceStartsInItsResetState : Obligations.NewInstanceStartsInItsResetState := by
  unfold Obligations.NewInstanceStartsInItsResetState
  refine ⟨fun p => rfl, fun s rest hs he hm hroom => ?_, fun s rest hs he hm hnone => ?_⟩
  · exact (step_event hs).trans
      (connect_tcp_room (s := { s with schedule := rest }) he hm (roomForSession_iff.mpr hroom))
  · exact (step_event hs).trans
      (connect_rtu_first (s := { s with schedule := rest }) he hm hnone)

/-! ### A process start (R340 to R343) -/

theorem restart_ended {p : Params} (he : s.epoch = .ended) (ht : p.typed) :
    restart p s = if p.preset.addressable then .next { State.boot p with schedule := s.schedule }
      else .refused .capacityTooLarge := by
  simp only [restart, he, if_neg (not_not.mpr ht), ite_not]

theorem restart_running {p : Params} (he : s.epoch = .running) :
    restart p s = .refused .softReset := by
  simp only [restart, he]

/-- Settles O57: a start is taken after the epoch only. -/
theorem processStartGivesTheResetState : Obligations.ProcessStartGivesTheResetState := by
  unfold Obligations.ProcessStartGivesTheResetState
  refine ⟨fun s rest p hs he ht ha => ?_, fun s rest p hs he => ?_⟩
  · rw [step_event hs, stepEvent, restart_ended (by exact he) ht, if_pos ha]
  · rw [step_event hs, stepEvent, restart_running (by exact he)]

/-! ### Refusals (log 16) -/

theorem feed_gap_tcp {k : Nat} {E : Engine} (hE : s.engines[k]? = some E) (hm : E.mode = .tcp) :
    feed k .gap s = .refused .gapToTcp := by
  simp only [feed, hE, hm, and_self, if_true]

theorem hostWriteBits_past {tab : BitTable} {a : Nat} {vs : List Bool} (he : s.epoch = .running)
    (ha : s.bitCapacity tab < a + vs.length) :
    hostWriteBits tab a vs s = .refused .hostWriteOutOfRange := by
  simp only [hostWriteBits, he, if_neg (Nat.not_le.mpr ha)]

theorem hostWriteWords_past {tab : WordTable} {a : Nat} {vs : List Word} (he : s.epoch = .running)
    (ha : s.wordCapacity tab < a + vs.length) :
    hostWriteWords tab a vs s = .refused .hostWriteOutOfRange := by
  simp only [hostWriteWords, he, if_neg (Nat.not_le.mpr ha)]

/-- Settles O16, one event at a time. -/
theorem hostRequestsTheSpecRefusesAreRefused : Obligations.HostRequestsTheSpecRefusesAreRefused := by
  unfold Obligations.HostRequestsTheSpecRefusesAreRefused
  refine ⟨fun s rest n hs he hm hn hfull => ?_, fun s rest hs he hm hne => ?_,
    fun s rest k E hs hE hm => ?_, fun s rest p hs => step_event hs,
    fun s rest tab a vs hs he ha => ?_, fun s rest tab a vs hs he ha => ?_,
    fun s rest p hs he ht ha => ?_⟩ <;>
    rw [step_event hs, stepEvent]
  · have hroom : ¬s.roomForSession = true := fun h =>
      absurd (roomForSession_iff.mp h n hn) (Nat.not_lt.mpr hfull)
    exact connect_tcp_full he hm hroom
  · exact connect_rtu_second he hm hne
  · exact feed_gap_tcp hE hm
  · exact hostWriteBits_past he ha
  · exact hostWriteWords_past he ha
  · rw [restart_ended (by exact he) ht, if_neg ha]

/-! ### The configuration within an epoch (R31, R61, R342) -/

/-- `t` has the configuration registers and the parameters of `s`. -/
abbrev State.SameConfiguration (s t : State) : Prop :=
  t.cfg = s.cfg ∧ t.preset = s.preset ∧ t.maxSessions = s.maxSessions ∧ t.baud = s.baud

theorem State.SessionStep.sameConfiguration {k : Nat} (h : s.SessionStep k t) :
    s.SameConfiguration t := by
  obtain rfl | ⟨E, F, -, -, -, m, rfl, -⟩ := h <;> exact ⟨rfl, rfl, rfl, rfl⟩

theorem stepEvent_sameConfiguration {e : Event} (h : stepEvent e s = .next t)
    (he : ∀ p, e ≠ .restart p) : s.SameConfiguration t := by
  cases e with
  | connect =>
    obtain ⟨-, rfl, -⟩ := connect_next h
    exact ⟨rfl, rfl, rfl, rfl⟩
  | feed k item =>
    obtain ⟨E, -, -, rfl⟩ := feed_next h
    exact ⟨rfl, rfl, rfl, rfl⟩
  | consume k => exact (consume_sessionStep h).sameConfiguration
  | emit k b => exact (emit_sessionStep h).sameConfiguration
  | abort =>
    obtain rfl := Host.Outcome.next.inj h
    exact ⟨rfl, rfl, rfl, rfl⟩
  | hostWriteBits tab a vs =>
    obtain ⟨-, -, rfl⟩ := hostWriteBits_next h
    exact ⟨rfl, rfl, rfl, rfl⟩
  | hostWriteWords tab a vs =>
    obtain ⟨-, -, rfl⟩ := hostWriteWords_next h
    exact ⟨rfl, rfl, rfl, rfl⟩
  | reconfigure p => cases h
  | restart p => exact absurd rfl (he p)

/-- Settles O14, by the event of the step. -/
theorem configurationIsFixedForTheEpoch : Obligations.ConfigurationIsFixedForTheEpoch := by
  unfold Obligations.ConfigurationIsFixedForTheEpoch
  refine ⟨fun p => ⟨rfl, rfl, rfl⟩, fun s t h hrestart => ?_⟩
  obtain ⟨-, rfl⟩ | ⟨e, rest, hs, he⟩ := step_next h
  · exact ⟨rfl, rfl, rfl, rfl⟩
  · exact stepEvent_sameConfiguration (s := { s with schedule := rest }) he
      fun p hp => hrestart p (by simp [hs, hp])

end Sys2Proof.Machine
end

section
/-! PROOF. The model's loader (log 20): a request placed at an instance is what its next step executes. -/

namespace Sys2Proof.Machine

variable {s : State} {pdu : List Byte} {i : Instr}

theorem decodeTableWord_eq_some_iff {nbits w : Nat} :
    decodeTableWord nbits w = some i ↔ decode (tablePdu nbits w) = .ok i := by
  unfold decodeTableWord
  cases decode (tablePdu nbits w) <;> simp

theorem ne_nil_of_decode (h : decode pdu = .ok i) : pdu ≠ [] := by
  rintro rfl
  cases h

/-- The loader leaves the request at some instance `k` whose step is next, and keeps the rest of the
state an instruction reads. -/
theorem withRequest_ready (s : State) (pdu : List Byte) :
    ∃ (k : Nat) (E : Engine),
      (s.withRequest pdu).engines[k]? = some (E.withRequest s.cfg.unitId pdu) ∧
      (s.withRequest pdu).schedule = .consume k :: s.schedule ∧
      (s.withRequest pdu).store = s.store ∧ (s.withRequest pdu).preset = s.preset ∧
      (s.withRequest pdu).cfg = s.cfg := by
  unfold State.withRequest
  cases hE : s.engine? with
  | some E =>
    exact ⟨s.cur, E, List.getElem?_set_self (engine?_some_lt s hE), rfl, rfl, rfl, rfl⟩
  | none =>
    exact ⟨s.engines.length, Engine.create s.cfg.mode, List.getElem?_concat_length,
      rfl, rfl, rfl, rfl⟩

/-- The step of an instance with a loaded request executes it, the frame addressed to `unit`. -/
theorem step_withRequest {k : Nat} {E : Engine} {unit : Byte} {rest : List Event}
    (hs : s.schedule = .consume k :: rest)
    (hE : s.engines[k]? = some (E.withRequest unit pdu))
    (hdec : decode pdu = .ok i) (hlen : pdu.length ≤ 253) :
    ∃ F env, step s = exec i (withEngine { s with schedule := rest } k F) ∧
      F.envelope = some env ∧ env.uid = unit := by
  have hne := ne_nil_of_decode hdec
  have hpos : 0 < pdu.length := List.length_pos_iff.mpr hne
  cases hm : E.mode with
  | tcp =>
    have hpdu : pdu.dropLast ++ [pdu.getLastD 0] = pdu := by
      rw [List.getLastD_eq_getLast?, List.getLast?_eq_some_getLast hne, Option.getD_some,
        List.dropLast_append_getLast]
    have hfits : (BitVec.ofNat 16 (1 + pdu.length)).toNat = 1 + pdu.length :=
      toNat_ofNat_of_lt (by omega)
    simp only [Engine.withRequest, hm] at hE
    refine ⟨_, .tcp 0 unit, (step_bodyByte_last hs ⟨hE, rfl, rfl, rfl⟩ rfl rfl rfl ?_).trans
      (execPdu_of_decode ?_ _), rfl, rfl⟩
    · simp only [List.length_dropLast, hfits]
      omega
    · rwa [hpdu]
  | rtu =>
    simp only [Engine.withRequest, hm] at hE
    refine ⟨_, .rtu unit, (step_gap_complete hs ⟨hE, rfl, rfl, rfl⟩ rfl rfl ?_
      (crc16_crcAppend _)).trans (execPdu_of_decode ?_ _), rfl, rfl⟩
    · simp only [encodeRtu_length]
      omega
    · rwa [rtuPdu_encodeRtu]

/-- Settles O50: the loaded frame is addressed to the configured unit, so the filter accepts it. -/
theorem fetchWordRunsTheTableInstruction : Obligations.FetchWordRunsTheTableInstruction := by
  unfold Obligations.FetchWordRunsTheTableInstruction
  intro s nbits w i hlen hi
  obtain ⟨k, E, hE, hs, hstore, hpreset, hcfg⟩ := withRequest_ready s (tablePdu nbits w)
  obtain ⟨F, env, hstep, henv, huid⟩ :=
    step_withRequest hs hE (decodeTableWord_eq_some_iff.mp hi) hlen
  have hk := (List.getElem?_eq_some_iff.mp hE).1
  refine ⟨_, F, env, hstep, ⟨List.getElem?_set_self hk, henv, ?_⟩, hstore, hpreset, hcfg, rfl⟩
  exact unitAccepted_iff.mpr (.inr (by rw [huid, withEngine_cfg, hcfg]))

end Sys2Proof.Machine
end
